-- ==== Sys2Proof/Word.lean ====
section
/-! DEFINITION. The words of the block: bits, command words, bytes, register numbers, unit names
(spec 00_scope.md R11, R16; 30_encoding.md R70). -/

namespace Sys2Proof

/-- A bit, 0 (`false`) or 1 (`true`) (R11). `not b` is `!b`; the number of a bit is `b.toNat`. -/
abbrev Bit := Bool

/-- A command word `CMD[3:0]` (R70). -/
abbrev CmdWord := BitVec 4

/-- An 8-bit value: `einfo`, a status register, a byte of a packed stream. -/
abbrev Byte := BitVec 8

/-- A status register number, 3 bits (R32). -/
abbrev RegNum := BitVec 3

/-- The two units of the block (R3, R16): the encoder ENC and the decoder DEC. -/
inductive UnitId where
  | enc
  | dec
  deriving DecidableEq, Repr

end Sys2Proof
end

