-- ==== Sys2Proof/Config.lean ====
section
/-! DEFINITION. What is fixed for a machine and never changed by a command: RADIX and MAX
(spec 00_scope.md R7, R8; 10_state.md R41), and the one value the spec leaves free, a pad bit (R54). -/

namespace Sys2Proof

/-- The configuration of a block: the field width RADIX (R7). -/
structure Config where
  /-- RADIX, the bit width of every field of the encoded stream. -/
  radix : Nat
  deriving DecidableEq, Repr

/-- MAX = 2^RADIX - 1, the largest field value (R8). -/
def Config.max (c : Config) : Nat := 2 ^ c.radix - 1

/-- The legal range of RADIX, 1 to 32 (R7). -/
abbrev Config.Legal (c : Config) : Prop := 1 ≤ c.radix ∧ c.radix ≤ 32

/-- This hardware: RADIX = 8, so MAX = 255 (R7, R8). Log entry 1. -/
def Config.hw : Config := ⟨8⟩

/-- FREE VALUE: pad bit number `j` of the byte-packed stream number `draw` (R54: "A model draws each
pad bit freely"). It has no body, so nothing can be proved of its value. Log entry 10. -/
opaque Config.freePadBit (draw j : Nat) : Bit

end Sys2Proof
end

