-- ==== Sys2Proof/Syntax.lean ====
section
/-! DEFINITION. The instructions of the block: one constructor per row of the opcode table
(spec opcode_table.json; 30_encoding.md R73). -/

namespace Sys2Proof

/-- The six instructions of RLEC-1. The only operand is the input bit of the two BIT commands (R72). -/
inductive Instr where
  /-- ENC_INIT, `enc.init` (R130). -/
  | encInit
  /-- ENC_BIT, `enc.bit b` (R133). -/
  | encBit (b : Bit)
  /-- ENC_END, `enc.end` (R134). -/
  | encEnd
  /-- DEC_INIT, `dec.init` (R160). -/
  | decInit
  /-- DEC_BIT, `dec.bit b` (R163). -/
  | decBit (b : Bit)
  /-- DEC_END, `dec.end` (R164). -/
  | decEnd
  deriving DecidableEq, Repr

/-- The unit an instruction names: the unit whose state it reads and writes (R72). -/
def Instr.unit : Instr → UnitId
  | .encInit => .enc
  | .encBit _ => .enc
  | .encEnd => .enc
  | .decInit => .dec
  | .decBit _ => .dec
  | .decEnd => .dec

end Sys2Proof
end

