-- ==== Sys2Proof/WellFormed.lean ====
section
/-! DEFINITION. What makes an instruction and a configuration well formed. -/

namespace Sys2Proof

/-- An instruction is well formed when its operands are in the range the encoding admits. The only
operand of the instruction set is one bit (R72), and its type holds exactly the values 0 and 1 ("both
values of b are legal", R133, R163), so no instruction fails the check. It is spelled out
constructor by constructor so that a new instruction has to say what it checks. -/
def Instr.wf : Instr → Bool
  | .encInit => true
  | .encBit _ => true
  | .encEnd => true
  | .decInit => true
  | .decBit _ => true
  | .decEnd => true

/-- The check that RADIX is in its legal range (R7). -/
def Config.wf (c : Config) : Bool := decide c.Legal

end Sys2Proof
end

