-- ==== Sys2Proof/Decode.lean ====
section
/-! DEFINITION. Decoding a command word, total on all 16 words, and encoding an instruction
(spec 30_encoding.md R70 to R76). -/

namespace Sys2Proof

/-- Why a word is reserved (R74). -/
inductive ReservedWhy where
  /-- OP = 11: the words 0x6, 0x7, 0xE, 0xF. -/
  | opReserved
  /-- OP = 00 (INIT) with B = 1: the words 0x1, 0x9. -/
  | initWithOperand
  /-- OP = 10 (END) with B = 1: the words 0x5, 0xD. -/
  | endWithOperand
  deriving DecidableEq, Repr

/-- What a command word stands for: an instruction, or a reserved word of the unit it names. -/
inductive Decoded where
  | instr (i : Instr)
  | reserved (u : UnitId) (w : CmdWord) (why : ReservedWhy)
  deriving DecidableEq, Repr

/-- Field U = CMD[3]: 0 is ENC, 1 is DEC (R71). -/
def cmdUnit (w : CmdWord) : UnitId := if w.getLsbD 3 then .dec else .enc

/-- Field OP = CMD[2:1] (R71). -/
def cmdOp (w : CmdWord) : BitVec 2 := w.extractLsb' 1 2

/-- Field B = CMD[0] (R71). -/
def cmdOperand (w : CmdWord) : Bit := w.getLsbD 0

/-- INIT of a unit. -/
def initOf : UnitId → Instr
  | .enc => .encInit
  | .dec => .decInit

/-- BIT of a unit with its operand. -/
def bitOf : UnitId → Bit → Instr
  | .enc, b => .encBit b
  | .dec, b => .decBit b

/-- END of a unit. -/
def endOf : UnitId → Instr
  | .enc => .encEnd
  | .dec => .decEnd

/-- `decode_cmd` (R75). -/
def decode (w : CmdWord) : Decoded :=
  let u := cmdUnit w
  let op := cmdOp w
  let b := cmdOperand w
  if op = 0b00#2 then
    if b then .reserved u w .initWithOperand else .instr (initOf u)
  else if op = 0b01#2 then .instr (bitOf u b)
  else if op = 0b10#2 then
    if b then .reserved u w .endWithOperand else .instr (endOf u)
  else .reserved u w .opReserved

/-- A word put together from its three fields, most significant first (R71). -/
def cmdWord (u : UnitId) (op : BitVec 2) (b : Bit) : CmdWord :=
  BitVec.ofBool (u = .dec) ++ op ++ BitVec.ofBool b

/-- The word of an instruction (R73). -/
def encode : Instr → CmdWord
  | .encInit => cmdWord .enc 0b00 false
  | .encBit b => cmdWord .enc 0b01 b
  | .encEnd => cmdWord .enc 0b10 false
  | .decInit => cmdWord .dec 0b00 false
  | .decBit b => cmdWord .dec 0b01 b
  | .decEnd => cmdWord .dec 0b10 false

/-- A row of spec/opcode_table.json: the words `w` with `w &&& mask = value`. -/
structure OpcodeRow where
  mnemonic : String
  value : CmdWord
  mask : CmdWord
  deriving DecidableEq, Repr

/-- Whether a word is one of a row's words. -/
def OpcodeRow.covers (r : OpcodeRow) (w : CmdWord) : Bool := w &&& r.mask = r.value

/-- spec/opcode_table.json, row by row. -/
def opcodeTable : List OpcodeRow :=
  [⟨"ENC_INIT", 0x0, 0xF⟩, ⟨"ENC_BIT", 0x2, 0xE⟩, ⟨"ENC_END", 0x4, 0xF⟩,
   ⟨"DEC_INIT", 0x8, 0xF⟩, ⟨"DEC_BIT", 0xA, 0xE⟩, ⟨"DEC_END", 0xC, 0xF⟩]

/-- The mnemonic of an instruction in spec/opcode_table.json. -/
def Instr.mnemonic : Instr → String
  | .encInit => "ENC_INIT"
  | .encBit _ => "ENC_BIT"
  | .encEnd => "ENC_END"
  | .decInit => "DEC_INIT"
  | .decBit _ => "DEC_BIT"
  | .decEnd => "DEC_END"

/-- The command word a table word stands for: the `nbits` low bits of `w`, of which the command port
takes four (R70: one format, one length, 4 bits). Log entry 5. -/
def tableWord (nbits w : Nat) : CmdWord := BitVec.ofNat 4 (w % 2 ^ nbits)

/-- The instruction the decoder reads from a word numbered as spec/opcode_table.json numbers it.
A value that does not fit the four wires of the command port is no command word. -/
def decodeTableWord (nbits w : Nat) : Option Instr :=
  if w % 2 ^ nbits < 16 then
    match decode (tableWord nbits w) with
    | .instr i => some i
    | .reserved _ _ _ => none
  else none

end Sys2Proof
end

