-- ==== Sys2Proof/Machine/State.lean ====
section
/-! DEFINITION. The state of the block: the pair (ENC, DEC) of spec 10_state.md R20, and beside it the
host's side of the command port (the model's own, log entries 2 and 4). Reset: 70_reset_and_hazards.md R220. -/

namespace Sys2Proof.Machine

/-- The invocation state `U.st` (R21). -/
inductive InvState where
  /-- READY: the unit accepts BIT and END. -/
  | ready
  /-- DONE: the invocation ended normally with END. -/
  | done
  /-- ERROR: the invocation failed; `U.err` says why. -/
  | error
  deriving DecidableEq, Repr

/-- The error code `U.err` (R22, R190). -/
inductive ErrCode where
  /-- NONE, code 0. -/
  | none
  /-- ILLEGAL_CMD, code 1 (R191). -/
  | illegalCmd
  /-- SEQUENCE, code 2 (R192). -/
  | sequence
  /-- STREAM_EXHAUSTED, code 3, DEC only (R193). -/
  | streamExhausted
  /-- FIELD_OVERFLOW, code 4, ENC only (R194). -/
  | fieldOverflow
  deriving DecidableEq, Repr

/-- An error being raised: its code and its information, `E(info)` of R195. -/
structure Raised where
  code : ErrCode
  info : Byte
  deriving DecidableEq, Repr

/-- The four fields both units have (R20). -/
structure UnitCommon where
  /-- Invocation state (R21). -/
  st : InvState
  /-- First error of the invocation (R22). -/
  err : ErrCode
  /-- Information of that error (R23). -/
  einfo : Byte
  /-- ENC: value of the run being counted. DEC: `currentBit` (R24). -/
  cur : Bit
  deriving DecidableEq, Repr

/-- The encoder unit (R20). -/
structure EncUnit extends UnitCommon where
  /-- Length counted so far of the run, not yet emitted (R27). -/
  len : Nat
  /-- Fields emitted in this invocation, in emission order (R28). -/
  out : List Nat
  deriving DecidableEq, Repr

/-- The decoder unit (R20). -/
structure DecUnit extends UnitCommon where
  /-- Bits of the partial field received so far (R26). -/
  acc : Nat
  /-- Number of bits in `acc` (R25). -/
  cnt : Nat
  /-- Bits emitted in this invocation, in emission order (R29). -/
  out : List Bit
  deriving DecidableEq, Repr

/-- What the host can do (R237). -/
inductive HostAction where
  /-- Send one command word, any of the 16. -/
  | command (w : CmdWord)
  /-- Read the status register of this number. -/
  | readStatus (a : RegNum)
  /-- Read the output stream of a unit. -/
  | readOutput (u : UnitId)
  /-- Assert reset between two commands (R220). -/
  | reset
  deriving DecidableEq, Repr

/-- What the block returns to a read (R237). -/
inductive Answer where
  /-- The value of status register `a` (R32). -/
  | status (a : RegNum) (value : Nat)
  /-- `ENC.out` as it stands. -/
  | encOutput (fields : List Nat)
  /-- `DEC.out` as it stands. -/
  | decOutput (bits : List Bit)
  deriving DecidableEq, Repr

/-- The host's side of the block, the MODEL's own: what the host has issued and the block has not yet
served, oldest first, and what the block has returned, oldest first. Log entries 2 and 4. -/
structure Port where
  pending : List HostAction
  answers : List Answer
  deriving DecidableEq, Repr

/-- The state of the machine: the two units, which are all the state the spec gives the block (R20),
and the host's side of the port. -/
structure State where
  enc : EncUnit
  dec : DecUnit
  port : Port
  deriving DecidableEq, Repr

/-- Reasons to stop with a fault. There is none: every error of the spec (R190) is recorded in the
failing unit and the machine goes on (R195), no address can fault (R60), and no other condition raises
an error (R190). So the type is empty, which is safe: no run is cut short. Log entry 8. -/
inductive Fault where
  deriving DecidableEq, Repr

/-- Reasons to refuse an instruction. -/
inductive Refusal where
  /-- An instruction that has no meaning yet. No arm of `exec` raises it. Safe: a refused run proves
  nothing of the hardware. -/
  | notModelled (mnemonic : String)
  deriving DecidableEq, Repr

/-- The common fields after INIT or reset (R130, R160, R220). -/
def UnitCommon.initial : UnitCommon := { st := .ready, err := .none, einfo := 0, cur := false }

/-- ENC at its reset values (R20, R220). -/
def EncUnit.initial : EncUnit := { UnitCommon.initial with len := 0, out := [] }

/-- DEC at its reset values (R20, R220). -/
def DecUnit.initial : DecUnit := { UnitCommon.initial with acc := 0, cnt := 0, out := [] }

/-- The machine right after reset (R220), with nothing issued by the host. -/
def State.reset : State :=
  { enc := EncUnit.initial, dec := DecUnit.initial, port := { pending := [], answers := [] } }

end Sys2Proof.Machine
end

