-- ==== Sys2Proof/Machine/Operands.lean ====
section
/-! DEFINITION. The operand forms: the one-bit operand of BIT, and the 8-bit forms in which a command
word or a count is recorded as error information (spec 30_encoding.md R72; 60_exceptions.md R196). -/

namespace Sys2Proof.Machine

/-- `zext_8(CMD)`: the command word as error information (R191, R192, R196). -/
def wordInfo (w : CmdWord) : Byte := w.setWidth 8

/-- A natural as 8 bits: `zext_8(DEC.cnt)` of R193 (exact, since `cnt` is below 256 in every state a run
reaches) and `v mod 256` of R194. Log entry 7 for other states. -/
def countInfo (n : Nat) : Byte := BitVec.ofNat 8 n

/-- `2 * acc + b`: shift in `b` as the new least significant bit (R163). -/
def shiftIn (acc : Nat) (b : Bit) : Nat := 2 * acc + b.toNat

end Sys2Proof.Machine
end

