-- ==== Sys2Proof/Machine/Flags.lean ====
section
/-! DEFINITION. The status registers, the only flags a host can test (spec 10_state.md R32 to R35, R39). -/

namespace Sys2Proof.Machine

/-- Field ST, bits [1:0] (R33): 11 is never read. -/
def InvState.code : InvState → BitVec 2
  | .ready => 0b00
  | .done => 0b01
  | .error => 0b10

/-- Field ERR, bits [4:2], the code of R22: 101, 110, 111 are never read. -/
def ErrCode.code : ErrCode → BitVec 3
  | .none => 0
  | .illegalCmd => 1
  | .sequence => 2
  | .streamExhausted => 3
  | .fieldOverflow => 4

/-- ENC_STATUS or DEC_STATUS of a unit: bits [7:6] zero, [5] CUR, [4:2] ERR, [1:0] ST (R33). -/
def UnitCommon.statusByte (u : UnitCommon) : Byte :=
  0b00#2 ++ BitVec.ofBool u.cur ++ u.err.code ++ u.st.code

/-- The width of a status register (R32): ENC_RUNLEN and DEC_ACC are RADIX bits wide, the others 8. -/
def regWidth (c : Config) (a : RegNum) : Nat :=
  match a.toNat with
  | 1 => c.radix
  | 5 => c.radix
  | _ => 8

/-- The value of a status register as an unsigned number (R32, R34, R35). Log entry 9. -/
def statusRead (s : State) (a : RegNum) : Nat :=
  match a.toNat with
  | 0 => s.enc.statusByte.toNat
  | 1 => s.enc.len
  | 2 => s.enc.einfo.toNat
  | 3 => 0
  | 4 => s.dec.statusByte.toNat
  | 5 => s.dec.acc
  | 6 => (countInfo s.dec.cnt).toNat
  | _ => s.dec.einfo.toNat

end Sys2Proof.Machine
end

