-- ==== Sys2Proof/Machine/Ops.lean ====
section
/-! DEFINITION. The operations the instructions share: raising an error and the return from one
(spec 60_exceptions.md R195, R199), the primitives that emit (R131, R161), the checks before a command
executes (30_encoding.md R76), and the updates of the state. -/

namespace Sys2Proof.Machine

/-- Error entry, `raise E(info) on U` (R195): `st`, `err` and `einfo`, and nothing else. Applied to the
unit as it was before the command, it discards every other write of the command. -/
def UnitCommon.raise (u : UnitCommon) (e : Raised) : UnitCommon :=
  { u with st := .error, err := e.code, einfo := e.info }

/-- Error entry on ENC (R195). -/
def EncUnit.raise (u : EncUnit) (e : Raised) : EncUnit :=
  { u with toUnitCommon := u.toUnitCommon.raise e }

/-- Error entry on DEC (R195). -/
def DecUnit.raise (u : DecUnit) (e : Raised) : DecUnit :=
  { u with toUnitCommon := u.toUnitCommon.raise e }

/-- What INIT writes to the fields both units have, from any state: the return from DONE and from an
error (R130, R160, R199). -/
def UnitCommon.restart : UnitCommon := { st := .ready, err := .none, einfo := 0, cur := false }

/-- `emit_field(v)` (R131): appends a field, or raises FIELD_OVERFLOW, never truncates. -/
def emitField (c : Config) (v : Nat) (u : EncUnit) : Except Raised EncUnit :=
  if c.max < v then .error ⟨.fieldOverflow, countInfo v⟩
  else .ok { u with out := u.out ++ [v] }

/-- `emit_bits(s)` (R161): appends bits; it raises nothing. -/
def emitBits (bits : List Bit) (u : DecUnit) : DecUnit := { u with out := u.out ++ bits }

/-- Steps 2, 4 and 5 of the dispatch of a legal BIT or END word `w` (R76): no effect in ERROR (R198),
SEQUENCE in DONE (R192), and in READY the command's body. If the body raises, only the error entry
takes effect (R132, R195). `u` is the unit before the command and `raise` its error entry. -/
def runCommand {σ : Type} (st : InvState) (raise : Raised → σ) (w : CmdWord)
    (body : Except Raised σ) (u : σ) : σ :=
  match st with
  | .error => u
  | .done => raise ⟨.sequence, wordInfo w⟩
  | .ready =>
    match body with
    | .ok u' => u'
    | .error e => raise e

/-- The dispatch of a legal BIT or END word that names ENC (R76). -/
def EncUnit.command (u : EncUnit) (w : CmdWord) (body : Except Raised EncUnit) : EncUnit :=
  runCommand u.st u.raise w body u

/-- The dispatch of a legal BIT or END word that names DEC (R76). -/
def DecUnit.command (u : DecUnit) (w : CmdWord) (body : Except Raised DecUnit) : DecUnit :=
  runCommand u.st u.raise w body u

/-- Steps 2 and 3 of the dispatch of a reserved word (R76): no effect in ERROR, ILLEGAL_CMD in READY and
in DONE (R191, R197). -/
def runReserved {σ : Type} (st : InvState) (raise : Raised → σ) (w : CmdWord) (u : σ) : σ :=
  match st with
  | .error => u
  | .ready => raise ⟨.illegalCmd, wordInfo w⟩
  | .done => raise ⟨.illegalCmd, wordInfo w⟩

/-- Replace the encoder unit. -/
def State.setEnc (s : State) (e : EncUnit) : State := { s with enc := e }

/-- Replace the decoder unit. -/
def State.setDec (s : State) (d : DecUnit) : State := { s with dec := d }

/-- Replace the host's unserved actions. -/
def State.setPending (s : State) (as : List HostAction) : State :=
  { s with port := { s.port with pending := as } }

/-- Return a value to the host. -/
def State.addAnswer (s : State) (a : Answer) : State :=
  { s with port := { s.port with answers := s.port.answers ++ [a] } }

/-- Assert reset (R220): every field of both units takes its reset value. What the host has issued and
what it has been answered are the host's and stay (log entry 16). -/
def State.assertReset (s : State) : State :=
  { s with enc := State.reset.enc, dec := State.reset.dec }

/-- A reserved word (R74, R76): it acts on the unit it names and on no other. -/
def illegalCommand (u : UnitId) (w : CmdWord) (s : State) : State :=
  match u with
  | .enc => s.setEnc (runReserved s.enc.st s.enc.raise w s.enc)
  | .dec => s.setDec (runReserved s.dec.st s.dec.raise w s.dec)

end Sys2Proof.Machine
end

