-- ==== Sys2Proof/Machine/Decoder.lean ====
section
/-! DEFINITION. The decoder unit: DEC_INIT, DEC_BIT, DEC_END (spec 42_decoder.md). The definitions ending
in `At` are for any RADIX (10_state.md R41); the ones `exec` calls are this hardware's, RADIX = 8. -/

namespace Sys2Proof.Machine

/-- The unit DEC_INIT leaves (R160). -/
def decInitUnit : DecUnit := { UnitCommon.restart with acc := 0, cnt := 0, out := [] }

/-- The pseudocode of DEC_BIT (R163). It raises nothing. -/
def decBitBody (c : Config) (b : Bit) (u : DecUnit) : Except Raised DecUnit :=
  let a := shiftIn u.acc b
  let n := u.cnt + 1
  if n = c.radix then
    let u := emitBits (List.replicate a u.cur) u
    pure { u with cur := !u.cur, acc := 0, cnt := 0 }
  else pure { u with acc := a, cnt := n }

/-- The pseudocode of DEC_END (R164). -/
def decEndBody (u : DecUnit) : Except Raised DecUnit :=
  if u.cnt ≠ 0 then throw ⟨.streamExhausted, countInfo u.cnt⟩
  else pure { u with st := .done }

/-- DEC_INIT executes in every state (R76 step 1, R160). -/
def execDecInitAt (_c : Config) (s : State) : State := s.setDec decInitUnit

/-- DEC_BIT behind the checks of R76. -/
def execDecBitAt (c : Config) (b : Bit) (s : State) : State :=
  s.setDec (s.dec.command (encode (.decBit b)) (decBitBody c b s.dec))

/-- DEC_END behind the checks of R76. -/
def execDecEndAt (_c : Config) (s : State) : State :=
  s.setDec (s.dec.command (encode .decEnd) (decEndBody s.dec))

/-- DEC_INIT (R160). -/
def execDecInit (s : State) : Host.Outcome State Fault Refusal := .next (execDecInitAt Config.hw s)

/-- DEC_BIT (R163). -/
def execDecBit (b : Bit) (s : State) : Host.Outcome State Fault Refusal :=
  .next (execDecBitAt Config.hw b s)

/-- DEC_END (R164). -/
def execDecEnd (s : State) : Host.Outcome State Fault Refusal := .next (execDecEndAt Config.hw s)

end Sys2Proof.Machine
end

