-- ==== Sys2Proof/Machine/Encoder.lean ====
section
/-! DEFINITION. The encoder unit: ENC_INIT, ENC_BIT, ENC_END (spec 41_encoder.md). The definitions ending
in `At` are for any RADIX (10_state.md R41); the ones `exec` calls are this hardware's, RADIX = 8. -/

namespace Sys2Proof.Machine

/-- The unit ENC_INIT leaves (R130). -/
def encInitUnit : EncUnit := { UnitCommon.restart with len := 0, out := [] }

/-- The pseudocode of ENC_BIT (R133). -/
def encBitBody (c : Config) (b : Bit) (u : EncUnit) : Except Raised EncUnit :=
  if b = u.cur then
    if u.len = c.max then do
      let u ← emitField c c.max u
      let u ← emitField c 0 u
      pure { u with len := 1 }
    else pure { u with len := u.len + 1 }
  else do
    let u ← emitField c u.len u
    pure { u with cur := b, len := 1 }

/-- The pseudocode of ENC_END (R134). -/
def encEndBody (c : Config) (u : EncUnit) : Except Raised EncUnit := do
  let u ← if u.len ≠ 0 then emitField c u.len u else pure u
  pure { u with st := .done }

/-- ENC_INIT executes in every state (R76 step 1, R130). -/
def execEncInitAt (_c : Config) (s : State) : State := s.setEnc encInitUnit

/-- ENC_BIT behind the checks of R76. -/
def execEncBitAt (c : Config) (b : Bit) (s : State) : State :=
  s.setEnc (s.enc.command (encode (.encBit b)) (encBitBody c b s.enc))

/-- ENC_END behind the checks of R76. -/
def execEncEndAt (c : Config) (s : State) : State :=
  s.setEnc (s.enc.command (encode .encEnd) (encEndBody c s.enc))

/-- ENC_INIT (R130). -/
def execEncInit (s : State) : Host.Outcome State Fault Refusal := .next (execEncInitAt Config.hw s)

/-- ENC_BIT (R133). -/
def execEncBit (b : Bit) (s : State) : Host.Outcome State Fault Refusal :=
  .next (execEncBitAt Config.hw b s)

/-- ENC_END (R134). -/
def execEncEnd (s : State) : Host.Outcome State Fault Refusal := .next (execEncEndAt Config.hw s)

end Sys2Proof.Machine
end

