-- ==== Sys2Proof/Machine/Dispatch.lean ====
section
/-! DEFINITION. The meaning of every instruction, one arm per constructor of Instr (spec 30_encoding.md R73). -/

namespace Sys2Proof.Machine

def exec (i : Instr) (s : State) : Host.Outcome State Fault Refusal :=
  match i with
  | .encInit => Sys2Proof.Machine.execEncInit s
  | .encBit b => Sys2Proof.Machine.execEncBit b s
  | .encEnd => Sys2Proof.Machine.execEncEnd s
  | .decInit => Sys2Proof.Machine.execDecInit s
  | .decBit b => Sys2Proof.Machine.execDecBit b s
  | .decEnd => Sys2Proof.Machine.execDecEnd s

end Sys2Proof.Machine
end

