-- ==== Sys2Proof/Machine/Port.lean ====
section
/-! DEFINITION. Serving one action of the host (spec 70_reset_and_hazards.md R237; 20_memory.md R61). -/

namespace Sys2Proof.Machine

/-- A command word (R76): an instruction is executed, a reserved word raises ILLEGAL_CMD on its unit. -/
def serveCommand (w : CmdWord) (s : State) : Host.Outcome State Fault Refusal :=
  match decode w with
  | .instr i => exec i s
  | .reserved u w' _ => .next (illegalCommand u w' s)

/-- A read of status register `a` answers its value and has no other effect (R36, R59). -/
def serveStatusRead (a : RegNum) (s : State) : State := s.addAnswer (.status a (statusRead s a))

/-- A read of a unit's output answers `U.out` as it stands and has no other effect (R59, R237). -/
def serveOutputRead (u : UnitId) (s : State) : State :=
  match u with
  | .enc => s.addAnswer (.encOutput s.enc.out)
  | .dec => s.addAnswer (.decOutput s.dec.out)

/-- One host action (R237), taken off the port already. -/
def serve (a : HostAction) (s : State) : Host.Outcome State Fault Refusal :=
  match a with
  | .command w => serveCommand w s
  | .readStatus a => .next (serveStatusRead a s)
  | .readOutput u => .next (serveOutputRead u s)
  | .reset => .next s.assertReset

/-- The oldest unserved action and the state without it, in issue order (R61). -/
def takeAction (s : State) : Option (HostAction × State) :=
  match s.port.pending with
  | [] => none
  | a :: rest => some (a, s.setPending rest)

/-- With nothing issued the block holds its state: only commands and reset change state (R59, R208).
Log entry 3. -/
def idle (s : State) : State := s

/-- Issue an action ahead of all others, so that the next step serves it. -/
def offerNext (a : HostAction) (s : State) : State := s.setPending (a :: s.port.pending)

end Sys2Proof.Machine
end

