-- ==== Sys2Proof/Machine/Step.lean ====
section
/-! DEFINITION. One step of the machine: one action of the host, served whole (spec 30_encoding.md R76;
20_memory.md R58, R61). -/

namespace Sys2Proof.Machine

/-- One step: take the oldest action the host has issued and serve it; with none, hold the state. -/
def step (s : State) : Host.Outcome State Fault Refusal :=
  match takeAction s with
  | none => .next (idle s)
  | some (a, s') => serve a s'

/-- `s` with the command word of a table row issued as the host's next action. The block fetches
nothing (R64): a command comes from the host over the command port. Log entries 5 and 6. -/
def State.withFetchWord (s : State) (nbits w : Nat) : State :=
  offerNext (.command (tableWord nbits w)) s

end Sys2Proof.Machine
end

