-- ==== Sys2Proof/Machine/Framing.lean ====
section
/-! DEFINITION. Run-length framing and overflow pairing as pure functions: the reference the units are held
to (spec 40_framing.md R100 to R113). -/

namespace Sys2Proof.Framing

/-- The maximal runs of a bit stream, each its value and its length (R101). -/
def runs : List Bit → List (Bit × Nat)
  | [] => []
  | b :: bs =>
    match runs bs with
    | [] => [(b, 1)]
    | (v, n) :: rs => if b = v then (v, n + 1) :: rs else (b, 1) :: (v, n) :: rs

/-- The field sequence of one run of length `L >= 1`, in the closed form of R102: `(L - 1) div MAX`
overflow pairs and the remainder. Log entry 13. -/
def split (c : Config) (L : Nat) : List Nat :=
  let k := (L - 1) / c.max
  (List.replicate k [c.max, 0]).flatten ++ [L - k * c.max]

/-- The leading zero field (R103). -/
def lead : List Bit → List Nat
  | true :: _ => [0]
  | false :: _ => []
  | [] => []

/-- The encoded stream of a bit stream (R104). -/
def encode (c : Config) (B : List Bit) : List Nat :=
  match B with
  | [] => []
  | _ :: _ => lead B ++ ((runs B).map (fun r => split c r.2)).flatten

/-- `decode_from(c, F)` (R106). -/
def decodeFrom (cur : Bit) : List Nat → List Bit
  | [] => []
  | f :: fs => List.replicate f cur ++ decodeFrom (!cur) fs

/-- The bit stream of a field stream (R106). -/
def decode (F : List Nat) : List Bit := decodeFrom false F

/-- `len(F) mod 2` as a bit: the current bit after the fields of `F` (R106). -/
def parity (n : Nat) : Bit := n % 2 = 1

/-- A canonical field stream: one that `encode` produces (R108). -/
def Canonical (c : Config) (F : List Nat) : Prop := ∃ B, F = encode c B

/-- `group ::= (MAX 0)* r` with `r` in 1..MAX (R108). -/
inductive Group (c : Config) : List Nat → Prop where
  | last {r : Nat} (pos : 1 ≤ r) (le : r ≤ c.max) : Group c [r]
  | pair {g : List Nat} (rest : Group c g) : Group c (c.max :: 0 :: g)

/-- A parse of `F` by the grammar of R108 into a lead and at least one group. -/
structure Parse (c : Config) (F : List Nat) (hasLead : Bool) (groups : List (List Nat)) : Prop where
  groups_ne : groups ≠ []
  each : ∀ g ∈ groups, Group c g
  stream : F = (if hasLead then [0] else []) ++ groups.flatten

/-- `canonical ::= (empty) | lead group group*` (R108). -/
def Grammar (c : Config) (F : List Nat) : Prop :=
  F = [] ∨ ∃ hasLead groups, Parse c F hasLead groups

/-- The number of fields of one run of length `L` (R111). -/
def runFields (c : Config) (L : Nat) : Nat := 2 * ((L - 1) / c.max) + 1

end Sys2Proof.Framing
end

