-- ==== Sys2Proof/Machine/Stream.lean ====
section
/-! DEFINITION. The bit form of a field stream and the byte form of a bit stream (spec 20_memory.md R50 to
R55; 00_scope.md R14). -/

namespace Sys2Proof.Stream

/-- The `RADIX`-bit sequence of a value, most significant bit first (R14, R50). -/
def bitsOf (c : Config) (v : Nat) : List Bit :=
  (List.range c.radix).map fun i => v.testBit (c.radix - 1 - i)

/-- The value of a bit sequence read most significant bit first (R26, R51, R52). -/
def valueOf (bits : List Bit) : Nat := bits.foldl (fun a b => 2 * a + b.toNat) 0

/-- `ser(F)` (R50). -/
def ser (c : Config) (F : List Nat) : List Bit := (F.map (bitsOf c)).flatten

/-- The fields that `S` holds whole, leaving out a partial field at its end (R31). -/
def wholeFields (c : Config) (S : List Bit) : List Nat :=
  (List.range (S.length / c.radix)).map fun k => valueOf ((S.drop (k * c.radix)).take c.radix)

/-- `deser(S)`, defined where the length of `S` is a multiple of RADIX and only there (R51). -/
def deser (c : Config) (S : List Bit) : Option (List Nat) :=
  if S.length % c.radix = 0 then some (wholeFields c S) else none

/-- Bit `j` of a packed stream: bit `j` of the stream, and after its end a pad bit, which is free
(R54). `draw` tells packed streams apart. -/
def paddedBit (draw : Nat) (S : List Bit) (j : Nat) : Bit :=
  S.getD j (Config.freePadBit draw (j - S.length))

/-- Packing a bit stream into bytes, done by the writer outside the core (R53, R54): bit `j` of the
stream goes to byte `j div 8`, at bit position `7 - (j mod 8)`. Log entries 10 and 11. -/
def packBytes (draw : Nat) (S : List Bit) : List Byte :=
  (List.range ((S.length + 7) / 8)).map fun k =>
    BitVec.ofNat 8 (valueOf ((List.range 8).map fun i => paddedBit draw S (8 * k + i)))

/-- The bits of a byte stream in the order of R53: every bit of every byte, first the most significant
(R233, for RADIX = 8). -/
def unpackBytes (bytes : List Byte) : List Bit :=
  (bytes.map fun x => (List.range 8).map fun i => x.getLsbD (7 - i)).flatten

end Sys2Proof.Stream
end

