-- ==== Sys2Proof/Machine/Assembler.lean ====
section
/-! DEFINITION. Assembler text and pseudo-instructions (spec 30_encoding.md R80, R81). -/

namespace Sys2Proof.Asm

/-- One line of a program: an instruction, a reserved word written as `.word` (R80), or a
pseudo-instruction (R81). -/
inductive Item where
  | instr (i : Instr)
  | word (w : CmdWord)
  | encRun (b : Bit) (n : Nat)
  | encStream (B : List Bit)
  | decField (v : Nat)
  | decStream (F : List Nat)
  | decBits (S : List Bit)
  deriving DecidableEq, Repr

/-- Whether a word is reserved (R74). -/
def isReserved (w : CmdWord) : Bool :=
  match decode w with
  | .instr _ => false
  | .reserved _ _ _ => true

/-- What the assembler accepts: `.word` of a reserved word only (R80), field values up to MAX (R81). -/
def Item.wf (c : Config) : Item → Bool
  | .instr i => i.wf
  | .word w => isReserved w
  | .encRun _ _ => true
  | .encStream _ => true
  | .decField v => v ≤ c.max
  | .decStream F => F.all (fun v => v ≤ c.max)
  | .decBits _ => true

/-- The words of one `enc.bit` a bit. -/
def encBitWords (B : List Bit) : List CmdWord := B.map fun b => encode (.encBit b)

/-- The words of one `dec.bit` a bit. -/
def decBitWords (S : List Bit) : List CmdWord := S.map fun b => encode (.decBit b)

/-- The command words an item stands for (R80, R81). -/
def Item.expand (c : Config) : Item → List CmdWord
  | .instr i => [encode i]
  | .word w => [w]
  | .encRun b n => encBitWords (List.replicate n b)
  | .encStream B => encode .encInit :: encBitWords B ++ [encode .encEnd]
  | .decField v => decBitWords (Stream.bitsOf c v)
  | .decStream F => encode .decInit :: decBitWords (Stream.ser c F) ++ [encode .decEnd]
  | .decBits S => decBitWords S

/-- White space between tokens. Log entry 14. -/
def isBlank (ch : Char) : Bool := ch = ' ' || ch = '\t'

/-- Characters that are tokens of their own: the comma and the brackets of R81's operands. -/
def isPunct (ch : Char) : Bool := ch = ',' || ch = '[' || ch = ']'

/-- Put the token being read, its characters reversed, before the tokens after it. -/
def flush (tok : List Char) (rest : List (List Char)) : List (List Char) :=
  if tok = [] then rest else tok.reverse :: rest

/-- The tokens of a line, a `#` ending it (R80). `tok` is the token being read, its characters reversed. -/
def tokens (tok : List Char) : List Char → List (List Char)
  | [] => flush tok []
  | ch :: rest =>
    if ch = '#' then flush tok []
    else if isBlank ch then flush tok (tokens [] rest)
    else if isPunct ch then flush tok ([ch] :: tokens [] rest)
    else tokens (ch :: tok) rest

/-- A bit character. -/
def bitChar (ch : Char) : Option Bit :=
  if ch = '0' then some false else if ch = '1' then some true else none

/-- A bit string, one or more of 0 and 1 (R81). -/
def bitString : List Char → Option (List Bit)
  | [] => none
  | [ch] => (bitChar ch).map fun b => [b]
  | ch :: rest => do
    let b ← bitChar ch
    let bs ← bitString rest
    pure (b :: bs)

/-- A decimal digit. -/
def digit (ch : Char) : Option Nat :=
  if '0' ≤ ch ∧ ch ≤ '9' then some (ch.toNat - '0'.toNat) else none

/-- A decimal number, the digits so far having the value `n` (R81). -/
def decimalFrom (n : Nat) : List Char → Option Nat
  | [] => some n
  | ch :: rest => (digit ch).bind fun d => decimalFrom (10 * n + d) rest

/-- A decimal number of one or more digits (R81). -/
def decimal (t : List Char) : Option Nat := if t = [] then none else decimalFrom 0 t

/-- The fields of a list after its first one. -/
def fieldListTail : List (List Char) → Option (List Nat)
  | [[']']] => some []
  | [','] :: t :: rest => do
    let v ← decimal t
    let vs ← fieldListTail rest
    pure (v :: vs)
  | _ => none

/-- A field list in brackets (R81; 00_scope.md R12: a literal sequence). -/
def fieldList : List (List Char) → Option (List Nat)
  | [['['], [']']] => some []
  | ['['] :: t :: rest => do
    let v ← decimal t
    let vs ← fieldListTail rest
    pure (v :: vs)
  | _ => none

/-- The reserved word of a `.word` operand `0xN` (R80: N one of 1, 5, 6, 7, 9, D, E, F). -/
def reservedLiteral (t : List Char) : Option CmdWord :=
  if t = "0x1".toList then some 0x1
  else if t = "0x5".toList then some 0x5
  else if t = "0x6".toList then some 0x6
  else if t = "0x7".toList then some 0x7
  else if t = "0x9".toList then some 0x9
  else if t = "0xD".toList then some 0xD
  else if t = "0xE".toList then some 0xE
  else if t = "0xF".toList then some 0xF
  else none

/-- `init` and `end` take no operand (R80). -/
def plainItem (i : Instr) (args : List (List Char)) : Option Item :=
  if args = [] then some (.instr i) else none

/-- `bit` takes the literal 0 or 1 (R80). -/
def bitItem (mk : Bit → Instr) : List (List Char) → Option Item
  | [[ch]] => (bitChar ch).map fun b => .instr (mk b)
  | _ => none

/-- `enc.run b, n` (R81). -/
def runItem : List (List Char) → Option Item
  | [[ch], [','], t] => do
    let b ← bitChar ch
    let n ← decimal t
    pure (.encRun b n)
  | _ => none

/-- A line's item from its first token and the others (R80, R81). Log entry 14. -/
def parseItem (m : List Char) (args : List (List Char)) : Option Item :=
  if m = "enc.init".toList then plainItem .encInit args
  else if m = "enc.bit".toList then bitItem .encBit args
  else if m = "enc.end".toList then plainItem .encEnd args
  else if m = "dec.init".toList then plainItem .decInit args
  else if m = "dec.bit".toList then bitItem .decBit args
  else if m = "dec.end".toList then plainItem .decEnd args
  else if m = ".word".toList then (args.head?.bind reservedLiteral).bind fun w =>
    if args.length = 1 then some (.word w) else none
  else if m = "enc.run".toList then runItem args
  else if m = "enc.stream".toList then (args.head?.bind bitString).bind fun B =>
    if args.length = 1 then some (.encStream B) else none
  else if m = "dec.field".toList then (args.head?.bind decimal).bind fun v =>
    if args.length = 1 then some (.decField v) else none
  else if m = "dec.stream".toList then (fieldList args).map .decStream
  else if m = "dec.bits".toList then (args.head?.bind bitString).bind fun S =>
    if args.length = 1 then some (.decBits S) else none
  else none

/-- One line of assembler text (R80): `some none` is a line without a command, `none` a rejected line. -/
def parseLine (line : List Char) : Option (Option Item) :=
  match tokens [] line with
  | [] => some none
  | m :: args => (parseItem m args).map some

/-- The words of one line, if the assembler accepts it. -/
def assembleLine (c : Config) (line : List Char) : Option (List CmdWord) :=
  match parseLine line with
  | none => none
  | some none => some []
  | some (some it) => if it.wf c then some (it.expand c) else none

/-- The words of a program, line by line, if the assembler accepts every line (R80, R81). -/
def assemble (c : Config) : List (List Char) → Option (List CmdWord)
  | [] => some []
  | line :: lines => do
    let ws ← assembleLine c line
    let vs ← assemble c lines
    pure (ws ++ vs)

end Sys2Proof.Asm
end

