-- ==== Sys2Proof/Machine/General.lean ====
section
/-! DEFINITION. The same machine at any RADIX: "A model takes RADIX as a parameter of the step relation"
(spec 10_state.md R41; 00_scope.md R7). At `Config.hw` it is the machine of `exec` and `step`
(Laws/Step.lean). -/

namespace Sys2Proof.Machine

/-- The meaning of an instruction at any RADIX. -/
def execAt (c : Config) (i : Instr) (s : State) : State :=
  match i with
  | .encInit => execEncInitAt c s
  | .encBit b => execEncBitAt c b s
  | .encEnd => execEncEndAt c s
  | .decInit => execDecInitAt c s
  | .decBit b => execDecBitAt c b s
  | .decEnd => execDecEndAt c s

/-- `step(CMD)` at any RADIX (R76). -/
def commandAt (c : Config) (w : CmdWord) (s : State) : State :=
  match decode w with
  | .instr i => execAt c i s
  | .reserved u w' _ => illegalCommand u w' s

/-- A sequence of command words in issue order (R61). -/
def commandsAt (c : Config) (ws : List CmdWord) (s : State) : State :=
  ws.foldl (fun s w => commandAt c w s) s

/-- One host action at any RADIX (R237). -/
def serveAt (c : Config) (a : HostAction) (s : State) : State :=
  match a with
  | .command w => commandAt c w s
  | .readStatus a => serveStatusRead a s
  | .readOutput u => serveOutputRead u s
  | .reset => s.assertReset

/-- A sequence of host actions in issue order (R61). -/
def actionsAt (c : Config) (as : List HostAction) (s : State) : State :=
  as.foldl (fun s a => serveAt c a s) s

/-- One step at any RADIX. -/
def stepAt (c : Config) (s : State) : State :=
  match takeAction s with
  | none => idle s
  | some (a, s') => serveAt c a s'

end Sys2Proof.Machine
end

