-- ==== Sys2Proof/Machine/Invocation.lean ====
section
/-! DEFINITION. An invocation as the sequence of a unit's commands, and what became of it (spec
70_reset_and_hazards.md R223; 00_scope.md R15). It is a function of what the host has issued, not state of the
block (10_state.md R20). -/

namespace Sys2Proof.Machine

/-- The three conditions of an invocation (R223). -/
inductive Progress where
  /-- Neither ended nor failed. -/
  | opened
  /-- Ended by the unit's END executed in READY. -/
  | succeeded
  /-- Ended by an error on the unit. -/
  | failed
  deriving DecidableEq, Repr

/-- An invocation on a unit (R223). -/
structure Invocation where
  /-- The unit's commands in issue order: its INIT, unless reset began the invocation, up to the one that ended it. -/
  words : List CmdWord
  /-- What became of it. -/
  progress : Progress
  deriving DecidableEq, Repr

/-- The invocation that reset begins (R223). -/
def Invocation.atReset : Invocation := { words := [], progress := .opened }

/-- The invocation that the INIT command `w` begins (R223). -/
def Invocation.atInit (w : CmdWord) : Invocation := { words := [w], progress := .opened }

/-- What a command of an open invocation makes of it, by the unit's state after the command: the unit was READY,
so it is DONE only by END executed in READY and ERROR only by an error (R76, R223). -/
def progressAfter (st : InvState) : Progress :=
  match st with
  | .ready => .opened
  | .done => .succeeded
  | .error => .failed

/-- A command of the unit other than its INIT. The FIRST end counts: one that comes after it is no command of the
invocation and changes nothing of it, though it may raise SEQUENCE or ILLEGAL_CMD on the unit (R223, R192). -/
def Invocation.take (v : Invocation) (w : CmdWord) (after : InvState) : Invocation :=
  match v.progress with
  | .opened => { words := v.words ++ [w], progress := progressAfter after }
  | .succeeded => v
  | .failed => v

/-- The invocation state of a unit (R21). -/
def State.unitSt (s : State) (u : UnitId) : InvState :=
  match u with
  | .enc => s.enc.st
  | .dec => s.dec.st

/-- The unit's invocation after one host action that left the unit in `after`: reset and the unit's INIT begin a
new one, its other commands are taken, and everything else is no part of it (R223, R237). -/
def Invocation.afterAction (v : Invocation) (u : UnitId) (a : HostAction) (after : InvState) : Invocation :=
  match a with
  | .command w =>
    if w = encode (initOf u) then .atInit w
    else if cmdUnit w = u then v.take w after
    else v
  | .reset => .atReset
  | .readStatus _ => v
  | .readOutput _ => v

/-- The unit's invocation after a sequence of host actions, `v` being the one before it. -/
def invocationAt (c : Config) (u : UnitId) : List HostAction → State → Invocation → Invocation
  | [], _, v => v
  | a :: as, s, v =>
    invocationAt c u as (serveAt c a s) (v.afterAction u a ((serveAt c a s).unitSt u))

/-- The unit's invocation after a sequence of host actions that begins right after reset (R220, R223). -/
def invocationFromReset (c : Config) (u : UnitId) (as : List HostAction) : Invocation :=
  invocationAt c u as State.reset .atReset

end Sys2Proof.Machine
end

