-- ==== Sys2Proof/Safety.lean ====
section
/-! DEFINITION. What the claims are stated with: the invariants of the two units (spec 10_state.md R22, R23,
R30, R31), what a unit has seen of its input, and when an invocation has a result
(70_reset_and_hazards.md R223, R230, R234). -/

namespace Sys2Proof.Machine

/-- `err` is NONE exactly in READY and DONE (R22), and `einfo` is 0 whenever `err` is NONE (R23). -/
structure UnitCommon.Coherent (u : UnitCommon) : Prop where
  err_iff : u.err ≠ .none ↔ u.st = .error
  einfo_none : u.err = .none → u.einfo = 0

/-- The ENC invariants that need no history: R30 items 1 to 3, R22, R23 and R196. -/
structure EncUnit.Inv (c : Config) (u : EncUnit) : Prop where
  coherent : u.Coherent
  len_le : u.len ≤ c.max
  fresh : u.len = 0 → u.cur = false ∧ u.out = []
  fields_le : ∀ f ∈ u.out, f ≤ c.max
  own_errors : u.err ≠ .streamExhausted ∧ u.err ≠ .fieldOverflow
  illegal_info : u.err = .illegalCmd → ∃ w, Asm.isReserved w ∧ cmdUnit w = .enc ∧ u.einfo = wordInfo w
  sequence_info : u.err = .sequence → u.einfo = 0x02 ∨ u.einfo = 0x03 ∨ u.einfo = 0x04

/-- The DEC invariants that need no history: R31 item 1 and the `cnt` and `acc` clauses of item 3, R22,
R23 and R196. -/
structure DecUnit.Inv (c : Config) (u : DecUnit) : Prop where
  coherent : u.Coherent
  cnt_lt : u.cnt < c.radix
  acc_lt : u.acc < 2 ^ u.cnt
  done_whole : u.st = .done → u.cnt = 0 ∧ u.acc = 0
  own_errors : u.err ≠ .fieldOverflow
  illegal_info : u.err = .illegalCmd → ∃ w, Asm.isReserved w ∧ cmdUnit w = .dec ∧ u.einfo = wordInfo w
  sequence_info : u.err = .sequence → u.einfo = 0x0A ∨ u.einfo = 0x0B ∨ u.einfo = 0x0C
  exhausted_info : u.err = .streamExhausted → u.cnt ≠ 0 ∧ u.einfo = countInfo u.cnt

/-- Both units meet their invariants. -/
structure State.Inv (c : Config) (s : State) : Prop where
  enc : s.enc.Inv c
  dec : s.dec.Inv c

/-- The field of the run being counted, not emitted yet (R30 item 4, R40). -/
def EncUnit.held (u : EncUnit) : List Nat := if u.len = 0 then [] else [u.len]

/-- ENC has counted exactly the input bits `B`: R30 item 4, and `cur` is the value of the run being
counted, the last bit given (R24). -/
structure EncUnit.Tracks (c : Config) (B : List Bit) (u : EncUnit) : Prop where
  stream : u.out ++ u.held = Framing.encode c B
  cur : u.cur = B.getLastD false

/-- DEC has received exactly the encoded bits `S` since INIT or reset: R31 item 2, which holds in every state
because END and an error keep these fields (R164, R195); item 3 is the case that no bit is left over. -/
structure DecUnit.Tracks (c : Config) (S : List Bit) (u : DecUnit) : Prop where
  cnt : u.cnt = S.length % c.radix
  acc : u.acc = Stream.valueOf (S.drop (S.length - u.cnt))
  cur : u.cur = Framing.parity (S.length / c.radix)
  out : u.out = Framing.decode (Stream.wholeFields c S)

/-- ENC's fields are those the rules give for the input bits `B` given since INIT or reset (R30 items 4 and 5):
in READY it has counted `B`, in DONE its output is `encode(B)`, and in ERROR it is as it was in READY or DONE
(R195). -/
def EncUnit.Follows (c : Config) (B : List Bit) (u : EncUnit) : Prop :=
  match u.st with
  | .ready => u.Tracks c B
  | .done => u.out = Framing.encode c B
  | .error => u.Tracks c B ∨ u.out = Framing.encode c B

/-- The result of an encode invocation: `ENC.out` read in DONE, and none otherwise (R223, R230). -/
def State.encResult (s : State) : Option (List Nat) :=
  match s.enc.st with
  | .done => some s.enc.out
  | .ready => none
  | .error => none

/-- The result of a decode invocation: `DEC.out` read in DONE, and none otherwise (R223, R230, R234). -/
def State.decResult (s : State) : Option (List Bit) :=
  match s.dec.st with
  | .done => some s.dec.out
  | .ready => none
  | .error => none

/-- The next host action the block serves, if any. -/
def State.nextAction (s : State) : Option HostAction := s.port.pending.head?

end Sys2Proof.Machine
end

