-- ==== Sys2Proof/Certificates/Slice0/Obligations.lean ====
section
/-! DEFINITION. The statements for the provers. Each docstring names the rule it formalises. Where a rule is
marked "derived" in the spec, or a clause rests on a log entry, the docstring says so. -/

open Sys2Proof Sys2Proof.Machine

/-! ## Command words -/

/-- R73: the opcode map, all 16 words. -/
def Obligations.DecoderReadsTheOpcodeMap : Prop :=
  decode 0x0 = .instr .encInit ∧ decode 0x1 = .reserved .enc 0x1 .initWithOperand ∧
  decode 0x2 = .instr (.encBit false) ∧ decode 0x3 = .instr (.encBit true) ∧
  decode 0x4 = .instr .encEnd ∧ decode 0x5 = .reserved .enc 0x5 .endWithOperand ∧
  decode 0x6 = .reserved .enc 0x6 .opReserved ∧ decode 0x7 = .reserved .enc 0x7 .opReserved ∧
  decode 0x8 = .instr .decInit ∧ decode 0x9 = .reserved .dec 0x9 .initWithOperand ∧
  decode 0xA = .instr (.decBit false) ∧ decode 0xB = .instr (.decBit true) ∧
  decode 0xC = .instr .decEnd ∧ decode 0xD = .reserved .dec 0xD .endWithOperand ∧
  decode 0xE = .reserved .dec 0xE .opReserved ∧ decode 0xF = .reserved .dec 0xF .opReserved

/-- Derived from R73 and R75: decoding and encoding agree in both directions. -/
def Obligations.DecodeAndEncodeAgree : Prop :=
  (∀ i : Instr, i.wf = true → decode (encode i) = .instr i) ∧
  (∀ (w : CmdWord) (i : Instr), decode w = .instr i → encode i = w)

/-- Derived from R76 and R61: a step serves the oldest action the host has issued, taken off the port; when that
is a command word that decodes to an instruction, the step is `exec` of that instruction. The port is the model's
own (log entry 2). -/
def Obligations.StepExecutesTheDecodedCommand : Prop :=
  ∀ (s : State) (a : HostAction) (rest : List HostAction), s.port.pending = a :: rest →
    step s = serve a { s with port := { s.port with pending := rest } } ∧
    ∀ (w : CmdWord) (i : Instr), a = .command w → decode w = .instr i →
      step s = exec i { s with port := { s.port with pending := rest } }

/-- Derived from R73 and R76: a word that the table decoder reads as an instruction, issued with
`withFetchWord`, is executed by the next step, and what the host had issued before stays issued. The port
and the numbering of the word are the model's own (log entries 2 and 5). -/
def Obligations.IssuedTableWordIsExecuted : Prop :=
  ∀ (s : State) (nbits w : Nat) (i : Instr),
    decodeTableWord nbits w = some i → step (s.withFetchWord nbits w) = exec i s

/-! ## Turned-away commands and errors -/

/-- R191: a reserved word raises ILLEGAL_CMD(zext_8(CMD)) on the unit it names, in READY and in DONE, and changes
nothing else. -/
def Obligations.ReservedWordRaisesIllegalCommand : Prop :=
  ∀ (s : State) (w : CmdWord),
    w ∈ ([0x1, 0x5, 0x6, 0x7, 0x9, 0xD, 0xE, 0xF] : List CmdWord) →
    (w.getLsbD 3 = false → s.enc.st ≠ .error →
      serve (.command w) s = .next { s with
        enc := { s.enc with st := .error, err := .illegalCmd, einfo := w.setWidth 8 } }) ∧
    (w.getLsbD 3 = true → s.dec.st ≠ .error →
      serve (.command w) s = .next { s with
        dec := { s.dec with st := .error, err := .illegalCmd, einfo := w.setWidth 8 } })

/-- R192: a BIT or END word that reaches a unit in DONE raises SEQUENCE(zext_8(CMD)) on it, and changes nothing
else. -/
def Obligations.InputAfterEndRaisesSequence : Prop :=
  ∀ (s : State) (w : CmdWord),
    (w ∈ ([0x2, 0x3, 0x4] : List CmdWord) → s.enc.st = .done →
      serve (.command w) s = .next { s with
        enc := { s.enc with st := .error, err := .sequence, einfo := w.setWidth 8 } }) ∧
    (w ∈ ([0xA, 0xB, 0xC] : List CmdWord) → s.dec.st = .done →
      serve (.command w) s = .next { s with
        dec := { s.dec with st := .error, err := .sequence, einfo := w.setWidth 8 } })

/-- R198: a unit in ERROR ignores every word that names it but its INIT. -/
def Obligations.UnitInErrorIgnoresAllButInit : Prop :=
  ∀ (s : State) (w : CmdWord),
    (w.getLsbD 3 = false → w ≠ 0x0 → s.enc.st = .error → serve (.command w) s = .next s) ∧
    (w.getLsbD 3 = true → w ≠ 0x8 → s.dec.st = .error → serve (.command w) s = .next s)

/-- Derived from R195 and R132: whatever step puts a unit in ERROR writes its `st`, `err` and `einfo` and no other field of it,
and does not touch the other unit. -/
def Obligations.ErrorEntryWritesOnlyTheErrorFields : Prop :=
  ∀ s t : State, step s = .next t →
    (s.enc.st ≠ .error → t.enc.st = .error →
      t.enc = { s.enc with st := .error, err := t.enc.err, einfo := t.enc.einfo } ∧
      t.enc.err ≠ .none ∧ t.dec = s.dec) ∧
    (s.dec.st ≠ .error → t.dec.st = .error →
      t.dec = { s.dec with st := .error, err := t.dec.err, einfo := t.dec.einfo } ∧
      t.dec.err ≠ .none ∧ t.enc = s.enc)

/-- R199: only the unit's INIT and reset lead out of ERROR, and they start with fresh state. -/
def Obligations.OnlyInitOrResetLeavesError : Prop :=
  ∀ s t : State, step s = .next t →
    (s.enc.st = .error → t.enc.st ≠ .error →
      (s.nextAction = some (.command 0x0) ∨ s.nextAction = some .reset) ∧
      t.enc = { st := .ready, err := .none, einfo := 0, cur := false, len := 0, out := [] }) ∧
    (s.dec.st = .error → t.dec.st ≠ .error →
      (s.nextAction = some (.command 0x8) ∨ s.nextAction = some .reset) ∧
      t.dec = { st := .ready, err := .none, einfo := 0, cur := false, acc := 0, cnt := 0, out := [] })

/-- Derived from R21, R191, R192 (log entry 12 on R21's sentence): a unit leaves DONE only by its INIT or
reset, or by an error, SEQUENCE or ILLEGAL_CMD, that a command word naming it raises. -/
def Obligations.DoneIsLeftOnlyByInitResetOrError : Prop :=
  ∀ s t : State, step s = .next t →
    (s.enc.st = .done →
      t.enc = s.enc ∨
      (t.enc.st = .ready ∧
        (s.nextAction = some (.command 0x0) ∨ s.nextAction = some .reset)) ∨
      (t.enc.st = .error ∧ t.enc.out = s.enc.out ∧ ∃ w : CmdWord, w.getLsbD 3 = false ∧
        s.nextAction = some (.command w) ∧
        (t.enc.err = .sequence ∨ t.enc.err = .illegalCmd) ∧ t.enc.einfo = w.setWidth 8)) ∧
    (s.dec.st = .done →
      t.dec = s.dec ∨
      (t.dec.st = .ready ∧
        (s.nextAction = some (.command 0x8) ∨ s.nextAction = some .reset)) ∨
      (t.dec.st = .error ∧ t.dec.out = s.dec.out ∧ ∃ w : CmdWord, w.getLsbD 3 = true ∧
        s.nextAction = some (.command w) ∧
        (t.dec.err = .sequence ∨ t.dec.err = .illegalCmd) ∧ t.dec.einfo = w.setWidth 8))

/-- Derived from R131, R136 and R194: `emit_field` appends a field that fits and raises FIELD_OVERFLOW(v mod 256)
for one that does not; it never truncates. Asked to write a field above MAX, ENC_END and ENC_BIT raise it on ENC and
write nothing else: this clause is about states that no run reaches, where taking the pseudocode literally is the
model's choice (log entry 7). From a state that meets the unit invariants no step raises it. -/
def Obligations.EmitFieldFailsRatherThanTruncates : Prop :=
  (∀ (c : Config) (v : Nat) (u : EncUnit),
    (v ≤ c.max → emitField c v u = .ok { u with out := u.out ++ [v] }) ∧
    (c.max < v → emitField c v u = .error ⟨.fieldOverflow, BitVec.ofNat 8 (v % 256)⟩)) ∧
  (∀ s : State, s.enc.st = .ready → 255 < s.enc.len →
    exec .encEnd s = .next { s with
      enc := { s.enc with st := .error, err := .fieldOverflow,
                          einfo := BitVec.ofNat 8 (s.enc.len % 256) } } ∧
    ∀ b : Bit, b ≠ s.enc.cur →
      exec (.encBit b) s = .next { s with
        enc := { s.enc with st := .error, err := .fieldOverflow,
                            einfo := BitVec.ofNat 8 (s.enc.len % 256) } }) ∧
  ∀ s t : State, s.Inv Config.hw → step s = .next t → t.enc.err ≠ .fieldOverflow

/-! ## The six instructions, RADIX = 8 -/

/-- R130: ENC_INIT, in every state. -/
def Obligations.EncInitStartsANewInvocation : Prop :=
  ∀ s : State, exec .encInit s = .next { s with
    enc := { st := .ready, err := .none, einfo := 0, cur := false, len := 0, out := [] } }

/-- R133 with RADIX = 8 (R7): ENC_BIT. In READY it counts the run, emits the overflow pair, or ends the run; in DONE it raises
SEQUENCE and in ERROR it is ignored. `len` is at most MAX in every state a run reaches (R27). -/
def Obligations.EncBitCountsTheRun : Prop :=
  ∀ (b : Bit) (s : State), s.enc.len ≤ 255 →
    (s.enc.st = .ready →
      exec (.encBit b) s = .next { s with
        enc :=
          if b = s.enc.cur then
            if s.enc.len = 255 then { s.enc with len := 1, out := s.enc.out ++ [255, 0] }
            else { s.enc with len := s.enc.len + 1 }
          else { s.enc with cur := b, len := 1, out := s.enc.out ++ [s.enc.len] } }) ∧
    (s.enc.st = .done →
      exec (.encBit b) s = .next { s with
        enc := { s.enc with st := .error, err := .sequence, einfo := if b then 0x03 else 0x02 } }) ∧
    (s.enc.st = .error → exec (.encBit b) s = .next s)

/-- R134: ENC_END. In READY it emits the field of the last run if any input was given and sets DONE; `cur`
and `len` keep their values. In DONE it raises SEQUENCE and in ERROR it is ignored. -/
def Obligations.EncEndEmitsTheLastField : Prop :=
  ∀ s : State, s.enc.len ≤ 255 →
    (s.enc.st = .ready → s.enc.len ≠ 0 →
      exec .encEnd s = .next { s with
        enc := { s.enc with st := .done, out := s.enc.out ++ [s.enc.len] } }) ∧
    (s.enc.st = .ready → s.enc.len = 0 →
      exec .encEnd s = .next { s with enc := { s.enc with st := .done } }) ∧
    (s.enc.st = .done →
      exec .encEnd s = .next { s with
        enc := { s.enc with st := .error, err := .sequence, einfo := 0x04 } }) ∧
    (s.enc.st = .error → exec .encEnd s = .next s)

/-- R160: DEC_INIT, in every state. -/
def Obligations.DecInitStartsANewInvocation : Prop :=
  ∀ s : State, exec .decInit s = .next { s with
    dec := { st := .ready, err := .none, einfo := 0, cur := false, acc := 0, cnt := 0, out := [] } }

/-- R163 with RADIX = 8 (R7): DEC_BIT. In READY it shifts the bit in, and the eighth bit of a field emits the field's copies of
`cur` and flips it; in DONE it raises SEQUENCE and in ERROR it is ignored. -/
def Obligations.DecBitAssemblesTheField : Prop :=
  ∀ (b : Bit) (s : State),
    (s.dec.st = .ready → s.dec.cnt + 1 = 8 →
      exec (.decBit b) s = .next { s with
        dec := { s.dec with
          cur := !s.dec.cur, acc := 0, cnt := 0,
          out := s.dec.out ++ List.replicate (2 * s.dec.acc + b.toNat) s.dec.cur } }) ∧
    (s.dec.st = .ready → s.dec.cnt + 1 ≠ 8 →
      exec (.decBit b) s = .next { s with
        dec := { s.dec with acc := 2 * s.dec.acc + b.toNat, cnt := s.dec.cnt + 1 } }) ∧
    (s.dec.st = .done →
      exec (.decBit b) s = .next { s with
        dec := { s.dec with st := .error, err := .sequence, einfo := if b then 0x0B else 0x0A } }) ∧
    (s.dec.st = .error → exec (.decBit b) s = .next s)

/-- R164 and R193: DEC_END. In READY it sets DONE at the end of a field and raises
STREAM_EXHAUSTED(zext_8(cnt)) inside one; in DONE it raises SEQUENCE and in ERROR it is ignored. `cnt` is
below RADIX in every state a run reaches (R25). -/
def Obligations.DecEndAcceptsOnlyWholeFields : Prop :=
  ∀ s : State, s.dec.cnt < 8 →
    (s.dec.st = .ready → s.dec.cnt = 0 →
      exec .decEnd s = .next { s with dec := { s.dec with st := .done } }) ∧
    (s.dec.st = .ready → s.dec.cnt ≠ 0 →
      exec .decEnd s = .next { s with
        dec := { s.dec with st := .error, err := .streamExhausted,
                            einfo := BitVec.ofNat 8 s.dec.cnt } }) ∧
    (s.dec.st = .done →
      exec .decEnd s = .next { s with
        dec := { s.dec with st := .error, err := .sequence, einfo := 0x0C } }) ∧
    (s.dec.st = .error → exec .decEnd s = .next s)

/-- Derived from R7, R41, R130, R133, R134, R160, R163, R164, R193: at every legal RADIX, the effect of ENC_INIT
and DEC_INIT in every state and of ENC_BIT, ENC_END, DEC_BIT and DEC_END in READY; and that the machine of `exec`
is the one at RADIX = 8. -/
def Obligations.InstructionEffectsAtEveryRadix : Prop :=
  (∀ (i : Instr) (s : State), exec i s = .next (execAt Config.hw i s)) ∧
  ∀ (c : Config) (b : Bit) (s : State), c.Legal →
    execAt c .encInit s = { s with
      enc := { st := .ready, err := .none, einfo := 0, cur := false, len := 0, out := [] } } ∧
    execAt c .decInit s = { s with
      dec := { st := .ready, err := .none, einfo := 0, cur := false, acc := 0, cnt := 0, out := [] } } ∧
    (s.enc.st = .ready → s.enc.len ≤ c.max →
      execAt c (.encBit b) s = { s with
        enc :=
          if b = s.enc.cur then
            if s.enc.len = c.max then { s.enc with len := 1, out := s.enc.out ++ [c.max, 0] }
            else { s.enc with len := s.enc.len + 1 }
          else { s.enc with cur := b, len := 1, out := s.enc.out ++ [s.enc.len] } } ∧
      execAt c .encEnd s = { s with
        enc := { s.enc with
          st := .done, out := s.enc.out ++ if s.enc.len = 0 then [] else [s.enc.len] } }) ∧
    (s.dec.st = .ready →
      execAt c (.decBit b) s = { s with
        dec :=
          if s.dec.cnt + 1 = c.radix then
            { s.dec with
              cur := !s.dec.cur, acc := 0, cnt := 0,
              out := s.dec.out ++ List.replicate (2 * s.dec.acc + b.toNat) s.dec.cur }
          else { s.dec with acc := 2 * s.dec.acc + b.toNat, cnt := s.dec.cnt + 1 } }) ∧
    (s.dec.st = .ready → s.dec.cnt < c.radix →
      execAt c .decEnd s = { s with
        dec :=
          if s.dec.cnt = 0 then { s.dec with st := .done }
          else { s.dec with st := .error, err := .streamExhausted,
                            einfo := BitVec.ofNat 8 s.dec.cnt } })

/-! ## Frames -/

/-- Derived from R20 and R76: an instruction leaves the unit it does not name, and the port, unchanged. -/
def Obligations.InstructionTouchesOnlyItsUnit : Prop :=
  ∀ (i : Instr) (s t : State), exec i s = .next t →
    t.port = s.port ∧ (i.unit = .enc → t.dec = s.dec) ∧ (i.unit = .dec → t.enc = s.enc)

/-- Derived from R133 and R163 ("ST and ERR unchanged"): the frame of the BIT commands in READY. The only
other fields are `cur`, `len`, `out` of ENC and `cur`, `acc`, `cnt`, `out` of DEC, whose new values
`EncBitCountsTheRun` and `DecBitAssemblesTheField` state. -/
def Obligations.BitCommandsKeepStatusAndError : Prop :=
  ∀ (b : Bit) (s t : State),
    (exec (.encBit b) s = .next t → s.enc.st = .ready → s.enc.len ≤ 255 →
      t.enc.st = s.enc.st ∧ t.enc.err = s.enc.err ∧ t.enc.einfo = s.enc.einfo ∧
      s.enc.out <+: t.enc.out ∧ t.dec = s.dec ∧ t.port = s.port) ∧
    (exec (.decBit b) s = .next t → s.dec.st = .ready →
      t.dec.st = s.dec.st ∧ t.dec.err = s.dec.err ∧ t.dec.einfo = s.dec.einfo ∧
      s.dec.out <+: t.dec.out ∧ t.enc = s.enc ∧ t.port = s.port)

/-- Derived from R134 and R164: the frame of the END commands. In every state they keep the data of the unit;
in READY, unless they raise, they keep `err` and `einfo`. -/
def Obligations.EndCommandsKeepTheData : Prop :=
  ∀ s t : State,
    (exec .encEnd s = .next t →
      t.enc.cur = s.enc.cur ∧ t.enc.len = s.enc.len ∧ s.enc.out <+: t.enc.out ∧
      (s.enc.st = .ready → t.enc.st = .done →
        t.enc.err = s.enc.err ∧ t.enc.einfo = s.enc.einfo) ∧
      t.dec = s.dec ∧ t.port = s.port) ∧
    (exec .decEnd s = .next t →
      t.dec.cur = s.dec.cur ∧ t.dec.acc = s.dec.acc ∧ t.dec.cnt = s.dec.cnt ∧
      t.dec.out = s.dec.out ∧
      (s.dec.st = .ready → t.dec.st = .done →
        t.dec.err = s.dec.err ∧ t.dec.einfo = s.dec.einfo) ∧
      t.enc = s.enc ∧ t.port = s.port)

/-- R231 (which the spec derives from R130 and R160): a unit's INIT and reset empty its output and clear its
partial state, and no other action removes a field or a bit from it. -/
def Obligations.OutputIsLostOnlyByInitOrReset : Prop :=
  ∀ s t : State, step s = .next t →
    (s.nextAction = some (.command 0x0) ∨ s.nextAction = some .reset →
      t.enc.out = [] ∧ t.enc.len = 0 ∧ t.enc.cur = false) ∧
    (s.nextAction = some (.command 0x8) ∨ s.nextAction = some .reset →
      t.dec.out = [] ∧ t.dec.acc = 0 ∧ t.dec.cnt = 0 ∧ t.dec.cur = false) ∧
    (s.nextAction ≠ some (.command 0x0) → s.nextAction ≠ some .reset →
      s.enc.out <+: t.enc.out) ∧
    (s.nextAction ≠ some (.command 0x8) → s.nextAction ≠ some .reset →
      s.dec.out <+: t.dec.out)

/-! ## Reset, status registers, the port -/

/-- Derived from R220: what reset leaves, that it has the effect of `enc.init` followed by `dec.init`, and that
every status register reads 0 after it. That the port stays as it was is the model's choice (log entry 16). -/
def Obligations.ResetIsInitOfBothUnits : Prop :=
  (∀ s : State,
    serve .reset s = .next { s with
      enc := { st := .ready, err := .none, einfo := 0, cur := false, len := 0, out := [] },
      dec := { st := .ready, err := .none, einfo := 0, cur := false, acc := 0, cnt := 0, out := [] } } ∧
    (∃ m : State, exec .encInit s = .next m ∧ serve .reset s = exec .decInit m) ∧
    ∀ t a, serve .reset s = .next t → statusRead t a = 0) ∧
  State.reset.enc = { st := .ready, err := .none, einfo := 0, cur := false, len := 0, out := [] } ∧
  State.reset.dec =
    { st := .ready, err := .none, einfo := 0, cur := false, acc := 0, cnt := 0, out := [] } ∧
  ∀ a : RegNum, statusRead State.reset a = 0

/-- Derived from R33 (whose reset value the spec derives): the layout of ENC_STATUS and DEC_STATUS, the values
that are never read, and the reset value. -/
def Obligations.StatusRegisterLayout : Prop :=
  (∀ u : UnitCommon,
    u.statusByte.extractLsb' 0 2 =
      (match u.st with | .ready => 0b00#2 | .done => 0b01#2 | .error => 0b10#2) ∧
    u.statusByte.extractLsb' 0 2 ≠ 0b11#2 ∧
    u.statusByte.extractLsb' 2 3 =
      (match u.err with
        | .none => 0#3 | .illegalCmd => 1#3 | .sequence => 2#3
        | .streamExhausted => 3#3 | .fieldOverflow => 4#3) ∧
    (u.statusByte.extractLsb' 2 3).toNat ≤ 4 ∧
    u.statusByte.getLsbD 5 = u.cur ∧
    u.statusByte.extractLsb' 6 2 = 0#2) ∧
  State.reset.enc.statusByte = 0x00 ∧ State.reset.dec.statusByte = 0x00

/-- Derived from R32, R34, R35: what each of the eight register numbers reads. DEC_CNT is `cnt` itself where
`cnt` fits its 8 bits, as it does in every state a run reaches. -/
def Obligations.StatusRegisterMap : Prop :=
  ∀ s : State,
    statusRead s 0 = s.enc.statusByte.toNat ∧ statusRead s 1 = s.enc.len ∧
    statusRead s 2 = s.enc.einfo.toNat ∧ statusRead s 3 = 0 ∧
    statusRead s 4 = s.dec.statusByte.toNat ∧ statusRead s 5 = s.dec.acc ∧
    (s.dec.cnt < 256 → statusRead s 6 = s.dec.cnt) ∧ statusRead s 7 = s.dec.einfo.toNat

/-- Derived from R32 and R57 with R26 and R27: in a state that meets the unit invariants, every register value
fits the register's width. -/
def Obligations.RegisterValuesFitTheirWidths : Prop :=
  ∀ (c : Config) (s : State) (a : RegNum), c.Legal → s.Inv c → statusRead s a < 2 ^ regWidth c a

/-- Derived from R36 and R59: a read answers the host and changes no state of the block; only commands and reset do. The list of
answers is the model's own (log entry 4). -/
def Obligations.ReadsHaveNoSideEffect : Prop :=
  (∀ (s : State) (a : RegNum) (rest : List HostAction), s.port.pending = .readStatus a :: rest →
    step s = .next { s with
      port := { pending := rest, answers := s.port.answers ++ [.status a (statusRead s a)] } }) ∧
  (∀ (s : State) (rest : List HostAction), s.port.pending = .readOutput .enc :: rest →
    step s = .next { s with
      port := { pending := rest, answers := s.port.answers ++ [.encOutput s.enc.out] } }) ∧
  (∀ (s : State) (rest : List HostAction), s.port.pending = .readOutput .dec :: rest →
    step s = .next { s with
      port := { pending := rest, answers := s.port.answers ++ [.decOutput s.dec.out] } }) ∧
  (∀ s t : State, step s = .next t → t.enc ≠ s.enc ∨ t.dec ≠ s.dec →
    s.nextAction = some .reset ∨ ∃ w, s.nextAction = some (.command w))

/-- Derived from R61: the actions the host has issued are served one at a time in issue order, each on the
state its predecessors left, and none is lost or left over. The lists of issued actions and of answers, and that
reset leaves them as they are, are the model's choice (log entries 2, 4 and 16). -/
def Obligations.ActionsAreServedInIssueOrder : Prop :=
  ∀ (as rest : List HostAction) (s : State), s.port.pending = as ++ rest →
    Host.Core.run Sys2Proof.core as.length s =
      .next (actionsAt Config.hw as { s with port := { s.port with pending := rest } })

/-- R62 (which the spec derives from R20): what a unit becomes is a function of that unit and of the commands
that name it, at every RADIX. -/
def Obligations.UnitsDoNotInterfere : Prop :=
  ∀ (c : Config) (ws : List CmdWord) (s s' : State),
    (s.enc = s'.enc →
      (commandsAt c ws s).enc = (commandsAt c (ws.filter fun w => cmdUnit w = .enc) s').enc) ∧
    (s.dec = s'.dec →
      (commandsAt c ws s).dec = (commandsAt c (ws.filter fun w => cmdUnit w = .dec) s').dec)

/-- R235 (which the spec derives from R62): interleaved commands of the two units leave what they leave one
unit after the other. -/
def Obligations.InterleavedInvocationsAsIfOneAfterTheOther : Prop :=
  ∀ (c : Config) (ws : List CmdWord) (s : State),
    commandsAt c ws s =
      commandsAt c
        ((ws.filter fun w => cmdUnit w = .enc) ++ (ws.filter fun w => cmdUnit w = .dec)) s

/-! ## Invariants -/

/-- Derived from R30, R31, R22, R23 and R220: reset meets the invariants, with no input given, at every legal
RADIX. -/
def Obligations.ResetMeetsTheInvariants : Prop :=
  ∀ c : Config, c.Legal →
    State.reset.Inv c ∧ State.reset.enc.Follows c [] ∧ State.reset.dec.Tracks c []

/-- Derived: R30 items 1 to 3, R31 item 1, R22, R23, R196. Every step of the machine, from every state that
meets the unit invariants, keeps them, at every legal RADIX. So FIELD_OVERFLOW is never raised. -/
def Obligations.StepKeepsUnitInvariants : Prop :=
  (∀ (c : Config) (s : State), c.Legal → s.Inv c → (stepAt c s).Inv c) ∧
  ∀ s t : State, s.Inv Config.hw → step s = .next t → t.Inv Config.hw

/-- Derived: R30 items 4 and 5 and R31 items 2 and 3, as an invariant with the inputs named, at every legal RADIX,
`step` being the case RADIX = 8. Where the units' fields are those of the input `B` and the encoded input `S`, a
step that executes a BIT of a unit leaves the fields of that input with the bit at its end; INIT and reset leave
those of no input; any other step, a BIT that is turned away among them, leaves those of the same input. -/
def Obligations.StepKeepsOutputsTheRulesGive : Prop :=
  (∀ s : State, step s = .next (stepAt Config.hw s)) ∧
  ∀ (c : Config) (s : State) (B S : List Bit), c.Legal → s.Inv c →
    s.enc.Follows c B → s.dec.Tracks c S →
    let t := stepAt c s
    let serves := fun i : Instr => s.nextAction = some (.command (encode i))
    (∀ b, serves (.encBit b) → s.enc.st = .ready →
      t.enc.st = .ready ∧ t.enc.Follows c (B ++ [b])) ∧
    (serves .encInit ∨ s.nextAction = some .reset → t.enc.st = .ready ∧ t.enc.Follows c []) ∧
    ((∀ b, serves (.encBit b) → s.enc.st ≠ .ready) → ¬ serves .encInit →
      s.nextAction ≠ some .reset → t.enc.Follows c B) ∧
    (∀ b, serves (.decBit b) → s.dec.st = .ready →
      t.dec.st = .ready ∧ t.dec.Tracks c (S ++ [b])) ∧
    (serves .decInit ∨ s.nextAction = some .reset → t.dec.st = .ready ∧ t.dec.Tracks c []) ∧
    ((∀ b, serves (.decBit b) → s.dec.st ≠ .ready) → ¬ serves .decInit →
      s.nextAction ≠ some .reset → t.dec.Tracks c S)

/-! ## The encoder and the decoder against the framing -/

/-- Derived from R30 item 4 and R137: after INIT and any input bits, ENC holds `encode(B)` but for its last
field, which is in `len`. -/
def Obligations.EncoderMidStreamOutput : Prop :=
  ∀ (c : Config) (B : List Bit) (s : State), c.Legal →
    let e := (commandsAt c (encode .encInit :: Asm.encBitWords B) s).enc
    e.st = .ready ∧ e.out ++ (if e.len = 0 then [] else [e.len]) = Framing.encode c B ∧
    (B ≠ [] → e.out = (Framing.encode c B).dropLast ∧
      (Framing.encode c B).getLast? = some e.len)

/-- Derived: R135 (whose argument the spec derives), and R20 for DEC. From any state, `enc.init`, the bits of `B`, `enc.end` leave
`ENC.out = encode(B)` and DONE, at every legal RADIX. -/
def Obligations.EncoderComputesEncode : Prop :=
  ∀ (c : Config) (B : List Bit) (s : State), c.Legal →
    let t := commandsAt c (Asm.Item.expand c (.encStream B)) s
    t.enc.st = .done ∧ t.enc.err = .none ∧ t.enc.out = Framing.encode c B ∧ t.dec = s.dec

/-- Derived from R31 item 2 and R168: after INIT and any encoded bits, DEC has emitted the decoding of the
whole fields and holds the partial field. -/
def Obligations.DecoderMidStreamOutput : Prop :=
  ∀ (c : Config) (S : List Bit) (s : State), c.Legal →
    let d := (commandsAt c (encode .decInit :: Asm.decBitWords S) s).dec
    d.st = .ready ∧ d.cnt = S.length % c.radix ∧
    d.acc = Stream.valueOf (S.drop (S.length - S.length % c.radix)) ∧
    d.cur = Framing.parity (S.length / c.radix) ∧
    ∃ F, Stream.deser c (S.take (S.length / c.radix * c.radix)) = some F ∧
      d.out = Framing.decode F

/-- Derived: R165 and the rules the spec derives it from. From any state, `dec.init`, the bits of `S`,
`dec.end` end in DONE with the decoding, or in STREAM_EXHAUSTED with the count of left-over bits and the
decoding of the whole fields, at every legal RADIX. -/
def Obligations.DecoderComputesDecode : Prop :=
  ∀ (c : Config) (S : List Bit) (s : State), c.Legal →
    let t := commandsAt c (encode .decInit :: Asm.decBitWords S ++ [encode .decEnd]) s
    t.enc = s.enc ∧
    (S.length % c.radix = 0 →
      t.dec.st = .done ∧ t.dec.err = .none ∧
      ∃ F, Stream.deser c S = some F ∧ t.dec.out = Framing.decode F) ∧
    (S.length % c.radix ≠ 0 →
      t.dec.st = .error ∧ t.dec.err = .streamExhausted ∧
      t.dec.einfo.toNat = S.length % c.radix ∧
      ∃ F, Stream.deser c (S.take (S.length - S.length % c.radix)) = some F ∧
        t.dec.out = Framing.decode F)

/-- Derived from R135, R165 and R109 ("it follows that `dec.stream` of the fields ENC produced for `B` ends
with `DEC.out = B`"): the round trip through both units, from any state, at every legal RADIX. -/
def Obligations.DecoderUndoesEncoder : Prop :=
  ∀ (c : Config) (B : List Bit) (s : State), c.Legal →
    let t := commandsAt c (Asm.Item.expand c (.encStream B)) s
    let r := commandsAt c (Asm.Item.expand c (.decStream t.enc.out)) t
    r.dec.st = .done ∧ r.dec.err = .none ∧ r.dec.out = B ∧ r.enc = t.enc

/-- Derived from R61, R135, R165, R223: the round trip as steps of the machine (RADIX = 8): the host issues an
encode invocation, a decode invocation of its output and two output reads, and is answered `encode(B)` and
`B`. The lists of issued actions and of answers are the model's choice (log entries 2 and 4). -/
def Obligations.BitmapRoundTripOnTheMachine : Prop :=
  ∀ (B : List Bit) (rest : List HostAction) (s : State),
    let F := Framing.encode Config.hw B
    let ws := Asm.Item.expand Config.hw (.encStream B) ++ Asm.Item.expand Config.hw (.decStream F)
    let as := ws.map HostAction.command ++ [.readOutput .enc, .readOutput .dec]
    s.port.pending = as ++ rest →
    ∃ t : State, Host.Core.run Sys2Proof.core as.length s = .next t ∧
      t.encResult = some F ∧ t.decResult = some B ∧
      t.port.answers = s.port.answers ++ [.encOutput F, .decOutput B] ∧ t.port.pending = rest

/-- Derived from R78 and R163: at a field boundary, `dec.field v` emits `v` copies of the current bit and
flips it, whatever field stream it stands in (R166). -/
def Obligations.FieldMeansCopiesThenFlip : Prop :=
  ∀ (c : Config) (v : Nat) (s : State), c.Legal → v ≤ c.max →
    s.dec.st = .ready → s.dec.cnt = 0 → s.dec.acc = 0 →
    commandsAt c (Asm.Item.expand c (.decField v)) s = { s with
      dec := { s.dec with cur := !s.dec.cur, out := s.dec.out ++ List.replicate v s.dec.cur } }

/-- Derived: R136 and R57. In a state that meets the invariants an ENC_BIT appends at most two fields and an
ENC_END at most one, each at most MAX, and a field 0 only as the leading zero field or second in an overflow
pair. -/
def Obligations.EncoderEmissionBounds : Prop :=
  ∀ (i : Instr) (s t : State), s.Inv Config.hw → s.enc.st = .ready → i.unit = .enc → i ≠ .encInit →
    exec i s = .next t →
    ∃ es : List Nat, t.enc.out = s.enc.out ++ es ∧ es.length ≤ (if i = .encEnd then 1 else 2) ∧
      (∀ f ∈ es, f ≤ 255) ∧
      (0 ∈ es → i ≠ .encEnd ∧ (es = [255, 0] ∨ (es = [0] ∧ s.enc.out = [])))

/-- Derived: R57, R162, R163. In a state that meets the invariants a DEC_BIT appends at most MAX bits, all
equal to the old `cur`, and `cur` flips exactly when a field completes. -/
def Obligations.DecoderEmissionBounds : Prop :=
  ∀ (b : Bit) (s t : State), s.Inv Config.hw → s.dec.st = .ready →
    exec (.decBit b) s = .next t →
    ∃ k, k ≤ 255 ∧ t.dec.out = s.dec.out ++ List.replicate k s.dec.cur ∧
      (t.dec.cur ≠ s.dec.cur ↔ s.dec.cnt = 7) ∧ (s.dec.cnt ≠ 7 → k = 0)

/-! ## Run-length framing -/

/-- R101: `runs(B)` is the unique split of `B` into maximal runs. -/
def Obligations.RunsAreTheUniqueMaximalRuns : Prop :=
  ∀ B : List Bit,
    let isRuns := fun rs : List (Bit × Nat) =>
      (∀ r ∈ rs, 1 ≤ r.2) ∧ rs.IsChain (fun r q => q.1 = !r.1) ∧
      (rs.map fun r => List.replicate r.2 r.1).flatten = B
    isRuns (Framing.runs B) ∧ ∀ rs, isRuns rs → rs = Framing.runs B

/-- R102: the overflow split, its loop, its closed form and its last field. -/
def Obligations.SplitIsTheOverflowLoop : Prop :=
  ∀ (c : Config) (L : Nat), c.Legal → 1 ≤ L →
    let k := (L - 1) / c.max
    (L ≤ c.max → Framing.split c L = [L]) ∧
    (c.max < L → Framing.split c L = [c.max, 0] ++ Framing.split c (L - c.max)) ∧
    Framing.split c L = (List.replicate k [c.max, 0]).flatten ++ [L - k * c.max] ∧
    1 ≤ L - k * c.max ∧ L - k * c.max ≤ c.max

/-- R103 and R104: `encode`, with the leading zero field exactly when the first bit is 1. -/
def Obligations.EncodeIsLeadThenSplitRuns : Prop :=
  ∀ (c : Config) (B : List Bit),
    Framing.encode c [] = [] ∧
    Framing.encode c (false :: B) =
      (Framing.runs (false :: B)).flatMap (fun r => Framing.split c r.2) ∧
    Framing.encode c (true :: B) =
      0 :: (Framing.runs (true :: B)).flatMap (fun r => Framing.split c r.2)

/-- Derived: R105, the edge cases the source states. -/
def Obligations.EncodeOfASingleRun : Prop :=
  ∀ (c : Config) (L : Nat), c.Legal → 1 ≤ L → L ≤ c.max →
    Framing.encode c [] = [] ∧
    Framing.encode c (List.replicate L false) = [L] ∧
    Framing.encode c (List.replicate L true) = [0, L]

/-- Derived: R106, `decode_from` and `decode`, their length and their behaviour on a concatenation. -/
def Obligations.DecodeEmitsEachFieldAlternating : Prop :=
  (∀ b : Bit, Framing.decodeFrom b [] = []) ∧
  (∀ (b : Bit) (f : Nat) (F : List Nat),
    Framing.decodeFrom b (f :: F) = List.replicate f b ++ Framing.decodeFrom (!b) F) ∧
  ∀ F G : List Nat,
    Framing.decode F = Framing.decodeFrom false F ∧
    (Framing.decode F).length = F.sum ∧
    Framing.decode (F ++ G) =
      Framing.decode F ++ Framing.decodeFrom (Framing.parity F.length) G

/-- Derived: R107, an overflow pair is transparent, and the fields of a run of length `L` emit `L` copies. -/
def Obligations.OverflowPairIsTransparent : Prop :=
  ∀ (c : Config) (b : Bit) (G : List Nat), c.Legal →
    Framing.decodeFrom b ([c.max, 0] ++ G) =
      List.replicate c.max b ++ Framing.decodeFrom b G ∧
    ∀ L, 1 ≤ L →
      Framing.decodeFrom b (Framing.split c L ++ G) =
        List.replicate L b ++ Framing.decodeFrom (!b) G

/-- Derived: R108, the canonical field streams are those of the grammar, each parses in exactly one way, and a field 0
stands only first or right after a MAX. -/
def Obligations.CanonicalStreamsAreTheGrammar : Prop :=
  ∀ (c : Config) (F : List Nat), c.Legal →
    (Framing.Canonical c F ↔ Framing.Grammar c F) ∧
    (∀ l l' gs gs', Framing.Parse c F l gs → Framing.Parse c F l' gs' → l = l' ∧ gs = gs') ∧
    (Framing.Canonical c F → ∀ k, F[k]? = some 0 → k = 0 ∨ F[k - 1]? = some c.max)

/-- R109: the round-trip law. -/
def Obligations.DecodeOfEncodeIsTheInput : Prop :=
  ∀ (c : Config) (B : List Bit), c.Legal → Framing.decode (Framing.encode c B) = B

/-- R110 (which the spec derives from R108 and R109): the converse holds exactly for canonical streams, with
the rule's two counterexamples. -/
def Obligations.EncodeOfDecodeOnlyForCanonicalStreams : Prop :=
  (∀ (c : Config) (F : List Nat), c.Legal →
    (Framing.encode c (Framing.decode F) = F ↔ Framing.Canonical c F)) ∧
  Framing.decode [0, 0] = [] ∧ Framing.encode Config.hw [] = [] ∧
  Framing.decode [3, 0, 2] = List.replicate 5 false ∧
  Framing.encode Config.hw (List.replicate 5 false) = [5]

/-- R111 (which the spec derives from R102 and R104): the number of fields and of bits of the encoding. -/
def Obligations.FieldCountOfTheEncoding : Prop :=
  ∀ (c : Config) (B : List Bit), c.Legal →
    (Framing.encode c B).length =
      (if B.head? = some true then 1 else 0) +
        ((Framing.runs B).map fun r => 2 * ((r.2 - 1) / c.max) + 1).sum ∧
    (Stream.ser c (Framing.encode c B)).length = c.radix * (Framing.encode c B).length

/-- Derived: R112, the size relations, with RADIX = 8. -/
def Obligations.EncodedSizeOfExtremeInputs : Prop :=
  (Framing.encode Config.hw (List.replicate 8000 false)).length = 63 ∧
  (Stream.ser Config.hw (Framing.encode Config.hw (List.replicate 8000 false))).length = 504 ∧
  ∀ n : Nat,
    let B := (List.range n).map fun i => decide (i % 2 = 1)
    (Framing.encode Config.hw B).length = n ∧
    (Stream.ser Config.hw (Framing.encode Config.hw B)).length = 8 * n

/-- Derived: R113 (which the spec derives from R102 and R104), the prefix property. -/
def Obligations.EncodingExtendsByPrefix : Prop :=
  ∀ (c : Config) (B B' : List Bit), c.Legal → B ≠ [] → B <+: B' →
    (Framing.encode c B).dropLast <+: Framing.encode c B'

/-! ## Bit and byte forms -/

/-- R50: fields go most significant bit first, in order. -/
def Obligations.SerialFormIsMostSignificantBitFirst : Prop :=
  ∀ (c : Config) (F : List Nat),
    (Stream.ser c F).length = F.length * c.radix ∧
    ∀ k i, (hk : k < F.length) → i < c.radix →
      (Stream.ser c F)[k * c.radix + i]? = some (F[k].testBit (c.radix - 1 - i))

/-- Derived: R51, `deser` undoes `ser` and `ser` undoes `deser`; `deser` is not defined on a length that is not a
multiple of RADIX. -/
def Obligations.SerAndDeserAreInverse : Prop :=
  ∀ c : Config, c.Legal →
    (∀ F : List Nat, (∀ f ∈ F, f ≤ c.max) → Stream.deser c (Stream.ser c F) = some F) ∧
    (∀ (S : List Bit) (F : List Nat), Stream.deser c S = some F →
      Stream.ser c F = S ∧ (∀ f ∈ F, f ≤ c.max)) ∧
    (∀ S : List Bit, S.length % c.radix = 0 ↔ ∃ F, Stream.deser c S = some F)

/-- Derived: R53 and R54. Bit `j` of a stream goes to byte `j div 8` at position `7 - (j mod 8)`, whatever the
pad bits are. The order within a byte is general knowledge in the spec itself (G1; log entry 11). -/
def Obligations.PackingPutsTheFirstBitHighest : Prop :=
  ∀ (draw : Nat) (S : List Bit),
    (Stream.packBytes draw S).length = (S.length + 7) / 8 ∧
    ∀ j, (hj : j < S.length) →
      ((Stream.packBytes draw S).getD (j / 8) 0).getLsbD (7 - j % 8) = S[j]

/-- Derived: R55 and R233, with the byte order of R53 (log entry 11). With RADIX = 8 the packed encoded stream
has one byte a field, equal to the field, no pad bits, and its bits are the encoded stream. -/
def Obligations.PackedEncodingHasOneByteAField : Prop :=
  ∀ (draw : Nat) (F : List Nat), (∀ f ∈ F, f ≤ 255) →
    Stream.packBytes draw (Stream.ser Config.hw F) = F.map (BitVec.ofNat 8) ∧
    Stream.unpackBytes (F.map (BitVec.ofNat 8)) = Stream.ser Config.hw F

/-! ## Assembler -/

/-- Derived from R80: the assembler text of each instruction gives its word, any other operand and any operand on `init` or
`end` is rejected, and a reserved word is written as `.word 0xN` and in no other way. White space and the case of
letters are the model's choice (log entry 14). -/
def Obligations.AssemblerGivesTheWordOfEachMnemonic : Prop :=
  Asm.assembleLine Config.hw "enc.init   # start".toList = some [0x0] ∧
  Asm.assembleLine Config.hw "enc.bit 0".toList = some [0x2] ∧
  Asm.assembleLine Config.hw "enc.bit 1".toList = some [0x3] ∧
  Asm.assembleLine Config.hw "enc.end".toList = some [0x4] ∧
  Asm.assembleLine Config.hw "dec.init".toList = some [0x8] ∧
  Asm.assembleLine Config.hw "dec.bit 0".toList = some [0xA] ∧
  Asm.assembleLine Config.hw "dec.bit 1".toList = some [0xB] ∧
  Asm.assembleLine Config.hw "dec.end".toList = some [0xC] ∧
  (∀ p ∈ [("0x1", 0x1#4), ("0x5", 0x5#4), ("0x6", 0x6#4), ("0x7", 0x7#4), ("0x9", 0x9#4),
      ("0xD", 0xD#4), ("0xE", 0xE#4), ("0xF", 0xF#4)],
    Asm.assembleLine Config.hw (".word ".toList ++ p.1.toList) = some [p.2]) ∧
  (∀ args i, Asm.parseItem "enc.init".toList args = some i ∨ Asm.parseItem "enc.end".toList args = some i ∨
    Asm.parseItem "dec.init".toList args = some i ∨ Asm.parseItem "dec.end".toList args = some i →
    args = []) ∧
  (∀ args i, Asm.parseItem "enc.bit".toList args = some i ∨ Asm.parseItem "dec.bit".toList args = some i →
    args = [['0']] ∨ args = [['1']]) ∧
  ∀ (line : List Char) (it : Asm.Item) (w : CmdWord), Asm.parseLine line = some (some it) →
    it.wf Config.hw = true → w ∈ it.expand Config.hw → Asm.isReserved w = true → it = .word w

/-- Derived from R81 and R73: the expansions of the pseudo-instructions, in command words. -/
def Obligations.PseudoInstructionsExpandToWords : Prop :=
  ∀ c : Config,
    (∀ b n, Asm.Item.expand c (.encRun b n) = List.replicate n (if b then 0x3 else 0x2)) ∧
    (∀ B, Asm.Item.expand c (.encStream B) =
      [0x0] ++ (B.map fun b => if b then 0x3#4 else 0x2#4) ++ [0x4]) ∧
    (∀ v, Asm.Item.expand c (.decField v) =
      (List.range c.radix).map fun i => if v.testBit (c.radix - 1 - i) then 0xB#4 else 0xA#4) ∧
    (∀ F, Asm.Item.expand c (.decStream F) =
      [0x8] ++ F.flatMap (fun f => Asm.Item.expand c (.decField f)) ++ [0xC]) ∧
    (∀ S, Asm.Item.expand c (.decBits S) = S.map fun b => if b then 0xB#4 else 0xA#4)
end

