-- ==== Sys2Proof/Laws/Config.lean ====
section
/-! SUPPORT. Facts about RADIX and MAX. -/

namespace Sys2Proof

@[simp] theorem Config.hw_radix : Config.hw.radix = 8 := rfl
@[simp] theorem Config.hw_max : Config.hw.max = 255 := rfl
theorem Config.hw_legal : Config.hw.Legal := by decide

/-- MAX + 1 = 2^RADIX. -/
theorem Config.max_add_one (c : Config) : c.max + 1 = 2 ^ c.radix :=
  Nat.sub_add_cancel (Nat.one_le_two_pow)

theorem Config.lt_two_pow_iff (c : Config) (v : Nat) : v < 2 ^ c.radix ↔ v ≤ c.max := by
  rw [← c.max_add_one]; omega

/-- `MAX >= 1` for every legal RADIX (R8). -/
theorem Config.max_pos {c : Config} (h : c.Legal) : 1 ≤ c.max := by
  have h2 : 2 ^ 1 ≤ 2 ^ c.radix := Nat.pow_le_pow_right (by omega) h.1
  have := c.max_add_one
  omega

end Sys2Proof
end

