-- ==== Sys2Proof/Laws/Decode.lean ====
section
/-! SUPPORT. What a command word can be. -/

namespace Sys2Proof

/-- Every instruction, to run a finite check over them. -/
def allInstrs : List Instr :=
  [.encInit, .encBit false, .encBit true, .encEnd, .decInit, .decBit false, .decBit true, .decEnd]

theorem mem_allInstrs (i : Instr) : i ∈ allInstrs := by
  cases i <;> first | decide | decide +revert

/-- Every word is an instruction's word or a reserved word of the unit it names (R73, R74, R75). -/
theorem decode_cases (w : CmdWord) :
    (∃ i, decode w = .instr i ∧ w = encode i ∧ cmdUnit w = i.unit) ∨
    (∃ why, decode w = .reserved (cmdUnit w) w why) := by
  have all : ∀ w : CmdWord,
      (∃ i ∈ allInstrs, decode w = .instr i ∧ w = encode i ∧ cmdUnit w = i.unit) ∨
      (∃ why ∈ [ReservedWhy.opReserved, .initWithOperand, .endWithOperand],
        decode w = .reserved (cmdUnit w) w why) := by decide
  obtain ⟨i, -, h⟩ | ⟨why, -, h⟩ := all w
  · exact .inl ⟨i, h⟩
  · exact .inr ⟨why, h⟩

end Sys2Proof
end

