-- ==== Sys2Proof/Laws/Framing.lean ====
section
/-! SUPPORT. The small lemmas of the framing functions. -/

namespace Sys2Proof

namespace Framing

@[simp] theorem runs_nil : runs [] = [] := rfl

@[simp] theorem runs_eq_nil {B : List Bit} : runs B = [] ↔ B = [] := by
  cases B with
  | nil => simp
  | cons b bs =>
    simp only [runs]
    split
    · simp
    · split <;> simp

@[simp] theorem lead_nil : lead [] = [] := rfl
@[simp] theorem lead_false (B : List Bit) : lead (false :: B) = [] := rfl
@[simp] theorem lead_true (B : List Bit) : lead (true :: B) = [0] := rfl

@[simp] theorem encode_nil (c : Config) : encode c [] = [] := rfl

/-- One formula for `encode`, empty input included. -/
theorem encode_eq (c : Config) (B : List Bit) :
    encode c B = lead B ++ ((runs B).map (fun r => split c r.2)).flatten := by
  cases B <;> simp [encode]

/-- A bit more at the end lengthens the last run or starts a new one (R101). -/
theorem runs_snoc (B : List Bit) (b : Bit) :
    (B = [] ∧ runs (B ++ [b]) = [(b, 1)]) ∨
    (B ≠ [] ∧ ∃ rs v n, runs B = rs ++ [(v, n)] ∧ B.getLastD false = v ∧
      runs (B ++ [b]) = if b = v then rs ++ [(v, n + 1)] else rs ++ [(v, n), (b, 1)]) := by
  induction B with
  | nil => exact .inl ⟨rfl, rfl⟩
  | cons a B ih =>
    refine .inr ⟨by simp, ?_⟩
    obtain ⟨rfl, h⟩ | ⟨hne, rs, v, n, h, hl, hs⟩ := ih
    · exact ⟨[], a, 1, rfl, rfl, by cases a <;> cases b <;> rfl⟩
    · have hl' : (a :: B).getLastD false = v := by
        cases B with
        | nil => exact absurd rfl hne
        | cons x xs => exact hl
      cases rs with
      | nil =>
        simp only [List.nil_append] at h hs
        by_cases hav : a = v
        · refine ⟨[], v, n + 1, by simp [runs, h, hav], hl', ?_⟩
          by_cases hbv : b = v
          · subst hbv; simp at hs; simp [runs, hs, hav]
          · simp [runs, hs, hbv, hav]
        · refine ⟨[(a, 1)], v, n, by simp [runs, h, hav], hl', ?_⟩
          by_cases hbv : b = v
          · subst hbv; simp at hs; simp [runs, hs, hav]
          · simp [runs, hs, hbv, hav]
      | cons p rs =>
        obtain ⟨w, k⟩ := p
        by_cases haw : a = w
        · refine ⟨(w, k + 1) :: rs, v, n, by simp [runs, h, haw], hl', ?_⟩
          by_cases hbv : b = v
          · subst hbv; simp at hs; simp [runs, hs, haw]
          · simp [runs, hs, hbv, haw]
        · refine ⟨(a, 1) :: (w, k) :: rs, v, n, by simp [runs, h, haw], hl', ?_⟩
          by_cases hbv : b = v
          · subst hbv; simp at hs; simp [runs, hs, haw]
          · simp [runs, hs, hbv, haw]

/-- The leading zero field depends on the first bit only (R103). -/
theorem lead_snoc {B : List Bit} (h : B ≠ []) (b : Bit) : lead (B ++ [b]) = lead B := by
  cases B with
  | nil => exact absurd rfl h
  | cons a B => cases a <;> rfl

@[simp] theorem decodeFrom_nil (b : Bit) : decodeFrom b [] = [] := rfl
@[simp] theorem decodeFrom_cons (b : Bit) (f : Nat) (F : List Nat) :
    decodeFrom b (f :: F) = List.replicate f b ++ decodeFrom (!b) F := rfl

@[simp] theorem parity_zero : parity 0 = false := rfl
@[simp] theorem parity_succ (n : Nat) : parity (n + 1) = !parity n := by
  by_cases h : n % 2 = 1
  · have h1 : (n + 1) % 2 ≠ 1 := by omega
    simp [parity, h, h1]
  · have h1 : (n + 1) % 2 = 1 := by omega
    simp [parity, h, h1]

end Framing

namespace Stream

@[simp] theorem bitsOf_length (c : Config) (v : Nat) : (bitsOf c v).length = c.radix := by
  simp [bitsOf]

@[simp] theorem valueOf_nil : valueOf [] = 0 := rfl

/-- Reading one more bit at the end shifts it in (R26, R163). -/
@[simp] theorem valueOf_snoc (S : List Bit) (b : Bit) :
    valueOf (S ++ [b]) = 2 * valueOf S + b.toNat := by
  simp [valueOf, List.foldl_append]

/-- A bit sequence of length n has a value below 2^n. -/
theorem valueOf_lt (S : List Bit) : valueOf S < 2 ^ S.length := by
  induction S using List.reverseRecOn with
  | nil => simp
  | append_singleton S b ih =>
    have hb : b.toNat ≤ 1 := Bool.toNat_le b
    rw [valueOf_snoc, List.length_append, List.length_singleton, Nat.pow_succ]
    omega

/-- The bits of a value read most significant first are the bits it was read from. -/
theorem valueOf_testBit (S : List Bit) :
    ∀ i, i < S.length → (valueOf S).testBit (S.length - 1 - i) = S.getD i false := by
  induction S using List.reverseRecOn with
  | nil => intro i h; simp at h
  | append_singleton S b ih =>
    intro i hi
    simp only [List.length_append, List.length_singleton] at hi
    have hb : valueOf (S ++ [b]) = Nat.bit b (valueOf S) := by simp [Nat.bit_val]
    rw [hb]
    by_cases h : i = S.length
    · subst h; simp
    · have e : (S ++ [b]).length - 1 - i = (S.length - 1 - i) + 1 := by simp; omega
      rw [e, Nat.testBit_bit_succ, ih i (by omega)]
      simp [List.getElem?_append_left (show i < S.length by omega)]

/-- The first whole field of a stream, and the others (R51). -/
theorem wholeFields_append {c : Config} (hr : 1 ≤ c.radix) (A S : List Bit)
    (hA : A.length = c.radix) : wholeFields c (A ++ S) = valueOf A :: wholeFields c S := by
  unfold wholeFields
  rw [List.length_append, hA, show c.radix + S.length = S.length + c.radix by omega,
    Nat.add_div_right _ (by omega), List.range_succ_eq_map, List.map_cons, List.map_map]
  congr 1
  · simp [← hA]
  · apply List.map_congr_left
    intro k _
    simp only [Function.comp]
    congr 2
    rw [show k.succ * c.radix = A.length + k * c.radix by rw [hA, Nat.succ_mul]; omega,
      List.drop_append]
    simp

@[simp] theorem ser_nil (c : Config) : ser c [] = [] := rfl
@[simp] theorem ser_cons (c : Config) (f : Nat) (F : List Nat) :
    ser c (f :: F) = bitsOf c f ++ ser c F := rfl

end Stream

end Sys2Proof
end

