-- ==== Sys2Proof/Laws/State.lean ====
section
/-! SUPPORT. One lemma per field per update of the state and of a unit, each true by rfl. -/

namespace Sys2Proof.Machine

variable (s : State) (e : EncUnit) (d : DecUnit) (as : List HostAction) (x : Answer) (r : Raised)

@[simp] theorem State.setEnc_enc : (s.setEnc e).enc = e := rfl
@[simp] theorem State.setEnc_dec : (s.setEnc e).dec = s.dec := rfl
@[simp] theorem State.setEnc_port : (s.setEnc e).port = s.port := rfl

@[simp] theorem State.setDec_enc : (s.setDec d).enc = s.enc := rfl
@[simp] theorem State.setDec_dec : (s.setDec d).dec = d := rfl
@[simp] theorem State.setDec_port : (s.setDec d).port = s.port := rfl

@[simp] theorem State.setPending_enc : (s.setPending as).enc = s.enc := rfl
@[simp] theorem State.setPending_dec : (s.setPending as).dec = s.dec := rfl
@[simp] theorem State.setPending_pending : (s.setPending as).port.pending = as := rfl
@[simp] theorem State.setPending_answers : (s.setPending as).port.answers = s.port.answers := rfl

@[simp] theorem State.addAnswer_enc : (s.addAnswer x).enc = s.enc := rfl
@[simp] theorem State.addAnswer_dec : (s.addAnswer x).dec = s.dec := rfl
@[simp] theorem State.addAnswer_pending : (s.addAnswer x).port.pending = s.port.pending := rfl
@[simp] theorem State.addAnswer_answers :
    (s.addAnswer x).port.answers = s.port.answers ++ [x] := rfl

@[simp] theorem State.assertReset_enc : s.assertReset.enc = EncUnit.initial := rfl
@[simp] theorem State.assertReset_dec : s.assertReset.dec = DecUnit.initial := rfl
@[simp] theorem State.assertReset_port : s.assertReset.port = s.port := rfl

/-- Setting a unit twice keeps the later one. -/
@[simp] theorem State.setEnc_setEnc (e' : EncUnit) : (s.setEnc e).setEnc e' = s.setEnc e' := rfl
@[simp] theorem State.setDec_setDec (d' : DecUnit) : (s.setDec d).setDec d' = s.setDec d' := rfl
@[simp] theorem State.setPending_setPending (as' : List HostAction) :
    (s.setPending as).setPending as' = s.setPending as' := rfl

/-- Updates of different parts commute; the spelling the lemmas aim at has `setPending` outside. -/
theorem State.setEnc_setPending : (s.setPending as).setEnc e = (s.setEnc e).setPending as := rfl
theorem State.setDec_setPending : (s.setPending as).setDec d = (s.setDec d).setPending as := rfl
theorem State.setDec_setEnc : (s.setEnc e).setDec d = (s.setDec d).setEnc e := rfl

@[simp] theorem State.setPending_self : s.setPending s.port.pending = s := rfl
@[simp] theorem State.setEnc_self : s.setEnc s.enc = s := rfl
@[simp] theorem State.setDec_self : s.setDec s.dec = s := rfl

@[simp] theorem EncUnit.raise_st : (e.raise r).st = .error := rfl
@[simp] theorem EncUnit.raise_err : (e.raise r).err = r.code := rfl
@[simp] theorem EncUnit.raise_einfo : (e.raise r).einfo = r.info := rfl
@[simp] theorem EncUnit.raise_cur : (e.raise r).cur = e.cur := rfl
@[simp] theorem EncUnit.raise_len : (e.raise r).len = e.len := rfl
@[simp] theorem EncUnit.raise_out : (e.raise r).out = e.out := rfl

@[simp] theorem DecUnit.raise_st : (d.raise r).st = .error := rfl
@[simp] theorem DecUnit.raise_err : (d.raise r).err = r.code := rfl
@[simp] theorem DecUnit.raise_einfo : (d.raise r).einfo = r.info := rfl
@[simp] theorem DecUnit.raise_cur : (d.raise r).cur = d.cur := rfl
@[simp] theorem DecUnit.raise_acc : (d.raise r).acc = d.acc := rfl
@[simp] theorem DecUnit.raise_cnt : (d.raise r).cnt = d.cnt := rfl
@[simp] theorem DecUnit.raise_out : (d.raise r).out = d.out := rfl

end Sys2Proof.Machine
end

