-- ==== Sys2Proof/Laws/Ops.lean ====
section
/-! SUPPORT. What each shared operation can do. -/

namespace Sys2Proof.Machine

/-- A field that fits is appended. -/
@[simp] theorem emitField_of_le {c : Config} {v : Nat} (u : EncUnit) (h : v ≤ c.max) :
    emitField c v u = .ok { u with out := u.out ++ [v] } := by
  simp [emitField, Nat.not_lt.mpr h]

/-- A field that does not fit raises FIELD_OVERFLOW. -/
theorem emitField_of_gt {c : Config} {v : Nat} (u : EncUnit) (h : c.max < v) :
    emitField c v u = .error ⟨.fieldOverflow, countInfo v⟩ := by
  simp [emitField, h]

section runCommand

variable {σ : Type} (raise : Raised → σ) (w : CmdWord) (body : Except Raised σ) (u : σ)

@[simp] theorem runCommand_error : runCommand .error raise w body u = u := rfl
@[simp] theorem runCommand_done :
    runCommand .done raise w body u = raise ⟨.sequence, wordInfo w⟩ := rfl
@[simp] theorem runCommand_ready_ok (u' : σ) : runCommand .ready raise w (.ok u') u = u' := rfl
@[simp] theorem runCommand_ready_error (e : Raised) :
    runCommand .ready raise w (.error e) u = raise e := rfl

/-- Everything the dispatch of a legal BIT or END word can do (R76). -/
theorem runCommand_cases (st : InvState) :
    (st = .error ∧ runCommand st raise w body u = u) ∨
    (st = .done ∧ runCommand st raise w body u = raise ⟨.sequence, wordInfo w⟩) ∨
    (st = .ready ∧ ∃ u', body = .ok u' ∧ runCommand st raise w body u = u') ∨
    (st = .ready ∧ ∃ e, body = .error e ∧ runCommand st raise w body u = raise e) := by
  cases st <;> cases body <;> simp

/-- Everything the dispatch of a reserved word can do (R76). -/
theorem runReserved_cases (st : InvState) :
    (st = .error ∧ runReserved st raise w u = u) ∨
    (st ≠ .error ∧ runReserved st raise w u = raise ⟨.illegalCmd, wordInfo w⟩) := by
  cases st <;> simp [runReserved]

end runCommand

@[simp] theorem illegalCommand_port (u : UnitId) (w : CmdWord) (s : State) :
    (illegalCommand u w s).port = s.port := by cases u <;> rfl

end Sys2Proof.Machine
end

