-- ==== Sys2Proof/Laws/Units.lean ====
section
/-! SUPPORT. What the body of each command can do: one lemma per case of its pseudocode. -/

namespace Sys2Proof.Machine

variable {c : Config} {b : Bit}

/-- ENC_BIT: the run goes on below MAX (R133). -/
theorem encBitBody_continue {u : EncUnit} (hb : b = u.cur) (hl : u.len ≠ c.max) :
    encBitBody c b u = .ok { u with len := u.len + 1 } := by
  simp [encBitBody, hb, hl, pure, Except.pure]

/-- ENC_BIT: the overflow pair (R133). -/
theorem encBitBody_pair {u : EncUnit} (hb : b = u.cur) (hl : u.len = c.max) :
    encBitBody c b u = .ok { u with len := 1, out := u.out ++ [c.max, 0] } := by
  simp [encBitBody, hb, hl, pure, Except.pure, bind, Except.bind]

/-- ENC_BIT: the run ends (R133). -/
theorem encBitBody_change {u : EncUnit} (hb : b ≠ u.cur) (hl : u.len ≤ c.max) :
    encBitBody c b u = .ok { u with cur := b, len := 1, out := u.out ++ [u.len] } := by
  simp [encBitBody, hb, hl, pure, Except.pure, bind, Except.bind]

/-- Every way ENC_BIT's body can complete (R133). -/
theorem encBitBody_ok {u u' : EncUnit} (h : encBitBody c b u = .ok u') :
    (b = u.cur ∧ u.len ≠ c.max ∧ u' = { u with len := u.len + 1 }) ∨
    (b = u.cur ∧ u.len = c.max ∧ u' = { u with len := 1, out := u.out ++ [c.max, 0] }) ∨
    (b ≠ u.cur ∧ u.len ≤ c.max ∧ u' = { u with cur := b, len := 1, out := u.out ++ [u.len] }) := by
  by_cases hb : b = u.cur
  · by_cases hl : u.len = c.max
    · rw [encBitBody_pair hb hl] at h
      exact .inr (.inl ⟨hb, hl, by simpa using h.symm⟩)
    · rw [encBitBody_continue hb hl] at h
      exact .inl ⟨hb, hl, by simpa using h.symm⟩
  · by_cases hl : u.len ≤ c.max
    · rw [encBitBody_change hb hl] at h
      exact .inr (.inr ⟨hb, hl, by simpa using h.symm⟩)
    · simp [encBitBody, hb, emitField_of_gt u (Nat.lt_of_not_le hl), bind, Except.bind] at h

/-- ENC_BIT's body raises only FIELD_OVERFLOW, and only for a held length above MAX (R133). -/
theorem encBitBody_error {u : EncUnit} {e : Raised} (h : encBitBody c b u = .error e) :
    c.max < u.len ∧ b ≠ u.cur ∧ e = ⟨.fieldOverflow, countInfo u.len⟩ := by
  by_cases hb : b = u.cur
  · by_cases hl : u.len = c.max
    · rw [encBitBody_pair hb hl] at h; cases h
    · rw [encBitBody_continue hb hl] at h; cases h
  · by_cases hl : u.len ≤ c.max
    · rw [encBitBody_change hb hl] at h; cases h
    · have hl := Nat.lt_of_not_le hl
      simp [encBitBody, hb, emitField_of_gt u hl, bind, Except.bind] at h
      exact ⟨hl, hb, h.symm⟩

/-- ENC_END when the held length fits (R134). -/
theorem encEndBody_of_le {u : EncUnit} (hl : u.len ≤ c.max) :
    encEndBody c u =
      .ok { u with st := .done, out := u.out ++ (if u.len = 0 then [] else [u.len]) } := by
  by_cases h0 : u.len = 0 <;> simp [encEndBody, h0, hl, pure, Except.pure, bind, Except.bind]

/-- ENC_END's body raises only FIELD_OVERFLOW (R134). -/
theorem encEndBody_of_gt {u : EncUnit} (hl : c.max < u.len) :
    encEndBody c u = .error ⟨.fieldOverflow, countInfo u.len⟩ := by
  have h0 : u.len ≠ 0 := by omega
  simp [encEndBody, h0, emitField_of_gt u hl, bind, Except.bind]

/-- ENC_END's body completes in one way only (R134). -/
theorem encEndBody_ok {u u' : EncUnit} (h : encEndBody c u = .ok u') :
    u.len ≤ c.max ∧
      u' = { u with st := .done, out := u.out ++ (if u.len = 0 then [] else [u.len]) } := by
  by_cases hl : u.len ≤ c.max
  · rw [encEndBody_of_le hl] at h
    exact ⟨hl, by simpa using h.symm⟩
  · rw [encEndBody_of_gt (Nat.lt_of_not_le hl)] at h
    cases h

/-- DEC_BIT that completes a field (R163). -/
theorem decBitBody_complete {u : DecUnit} (h : u.cnt + 1 = c.radix) :
    decBitBody c b u =
      .ok { u with cur := !u.cur, acc := 0, cnt := 0,
                   out := u.out ++ List.replicate (shiftIn u.acc b) u.cur } := by
  simp [decBitBody, h, emitBits, pure, Except.pure]

/-- DEC_BIT that leaves the field incomplete (R163). -/
theorem decBitBody_partial {u : DecUnit} (h : u.cnt + 1 ≠ c.radix) :
    decBitBody c b u = .ok { u with acc := shiftIn u.acc b, cnt := u.cnt + 1 } := by
  simp [decBitBody, h, pure, Except.pure]

/-- Every way DEC_BIT's body can complete (R163). -/
theorem decBitBody_ok {u u' : DecUnit} (h : decBitBody c b u = .ok u') :
    (u.cnt + 1 = c.radix ∧
      u' = { u with cur := !u.cur, acc := 0, cnt := 0,
                    out := u.out ++ List.replicate (shiftIn u.acc b) u.cur }) ∨
    (u.cnt + 1 ≠ c.radix ∧ u' = { u with acc := shiftIn u.acc b, cnt := u.cnt + 1 }) := by
  by_cases hn : u.cnt + 1 = c.radix
  · rw [decBitBody_complete hn] at h
    exact .inl ⟨hn, by simpa using h.symm⟩
  · rw [decBitBody_partial hn] at h
    exact .inr ⟨hn, by simpa using h.symm⟩

/-- DEC_END at the end of a field (R164). -/
theorem decEndBody_whole {u : DecUnit} (h : u.cnt = 0) :
    decEndBody u = .ok { u with st := .done } := by
  simp [decEndBody, h, pure, Except.pure]

/-- DEC_END inside a field (R164, R193). -/
theorem decEndBody_partial {u : DecUnit} (h : u.cnt ≠ 0) :
    decEndBody u = .error ⟨.streamExhausted, countInfo u.cnt⟩ := by
  simp [decEndBody, h, throw, throwThe, MonadExceptOf.throw]

/-- `exec` never stops: it answers a next state for every instruction in every state. -/
theorem exec_next (i : Instr) (s : State) : ∃ t, exec i s = .next t := by
  cases i <;> exact ⟨_, rfl⟩

end Sys2Proof.Machine
end

