-- ==== Sys2Proof/Laws/Step.lean ====
section
/-! SUPPORT. What a step can do, and the machine at RADIX = 8 as a case of the general one. -/

namespace Sys2Proof.Machine

/-- The machine of `exec` is the general one at this hardware's RADIX. -/
theorem exec_eq_execAt (i : Instr) (s : State) : exec i s = .next (execAt Config.hw i s) := by
  cases i <;> rfl

theorem serveCommand_eq_commandAt (w : CmdWord) (s : State) :
    serveCommand w s = .next (commandAt Config.hw w s) := by
  unfold serveCommand commandAt
  cases decode w with
  | instr i => exact exec_eq_execAt i s
  | reserved u w' why => rfl

theorem serve_eq_serveAt (a : HostAction) (s : State) :
    serve a s = .next (serveAt Config.hw a s) := by
  cases a with
  | command w => exact serveCommand_eq_commandAt w s
  | readStatus a => rfl
  | readOutput u => rfl
  | reset => rfl

theorem takeAction_nil {s : State} (h : s.port.pending = []) : takeAction s = none := by
  simp [takeAction, h]

theorem takeAction_cons {s : State} {a : HostAction} {rest : List HostAction}
    (h : s.port.pending = a :: rest) : takeAction s = some (a, s.setPending rest) := by
  simp [takeAction, h]

/-- The machine of `step` is the general one at this hardware's RADIX. -/
theorem step_eq_stepAt (s : State) : step s = .next (stepAt Config.hw s) := by
  unfold step stepAt
  cases takeAction s with
  | none => rfl
  | some p => exact serve_eq_serveAt p.1 p.2

theorem stepAt_nil {s : State} (c : Config) (h : s.port.pending = []) : stepAt c s = s := by
  rw [stepAt, takeAction_nil h]; rfl

theorem stepAt_cons {s : State} {a : HostAction} {rest : List HostAction} (c : Config)
    (h : s.port.pending = a :: rest) : stepAt c s = serveAt c a (s.setPending rest) := by
  rw [stepAt, takeAction_cons h]

/-- Everything a step can do: hold the state with nothing pending, or serve the oldest action. -/
theorem stepAt_cases (c : Config) (s : State) :
    (s.port.pending = [] ∧ stepAt c s = s) ∨
    (∃ a rest, s.port.pending = a :: rest ∧ stepAt c s = serveAt c a (s.setPending rest)) := by
  cases h : s.port.pending with
  | nil => exact .inl ⟨rfl, stepAt_nil c h⟩
  | cons a rest => exact .inr ⟨a, rest, rfl, stepAt_cons c h⟩

/-- What one command word can be (R75, R76). -/
theorem commandAt_cases (c : Config) (w : CmdWord) (s : State) :
    (∃ i, decode w = .instr i ∧ commandAt c w s = execAt c i s) ∨
    (∃ u w' why, decode w = .reserved u w' why ∧ commandAt c w s = illegalCommand u w' s) := by
  unfold commandAt
  cases decode w with
  | instr i => exact .inl ⟨i, rfl, rfl⟩
  | reserved u w' why => exact .inr ⟨u, w', why, rfl, rfl⟩

/-- An instruction leaves the port alone. -/
@[simp] theorem execAt_port (c : Config) (i : Instr) (s : State) :
    (execAt c i s).port = s.port := by cases i <;> rfl

@[simp] theorem commandAt_port (c : Config) (w : CmdWord) (s : State) :
    (commandAt c w s).port = s.port := by
  obtain ⟨i, -, h⟩ | ⟨u, w', why, -, h⟩ := commandAt_cases c w s <;> simp [h]

/-- What is still pending plays no part in serving an action. -/
theorem serveAt_setPending (c : Config) (a : HostAction) (s : State) (as : List HostAction) :
    serveAt c a (s.setPending as) = (serveAt c a s).setPending as := by
  cases a with
  | command w =>
    simp only [serveAt, commandAt]
    cases decode w with
    | instr i => cases i <;> rfl
    | reserved u w' why => cases u <;> rfl
  | readStatus a => rfl
  | readOutput u => cases u <;> rfl
  | reset => rfl

@[simp] theorem commandsAt_nil (c : Config) (s : State) : commandsAt c [] s = s := rfl

@[simp] theorem commandsAt_cons (c : Config) (w : CmdWord) (ws : List CmdWord) (s : State) :
    commandsAt c (w :: ws) s = commandsAt c ws (commandAt c w s) := rfl

theorem commandsAt_append (c : Config) (ws vs : List CmdWord) (s : State) :
    commandsAt c (ws ++ vs) s = commandsAt c vs (commandsAt c ws s) := by
  simp [commandsAt, List.foldl_append]

end Sys2Proof.Machine
end

