-- ==== Sys2Proof/Laws/Moves.lean ====
section
/-! SUPPORT. Everything one command word can do to each unit, said once (spec 30_encoding.md R76). -/

namespace Sys2Proof.Machine

/-- What the word `w` can make of ENC. -/
inductive EncMove (c : Config) (w : CmdWord) (u : EncUnit) : EncUnit → Prop where
  /-- The word names DEC. -/
  | other (unit : cmdUnit w = .dec) : EncMove c w u u
  /-- ENC_INIT. -/
  | init (word : w = encode .encInit) : EncMove c w u encInitUnit
  /-- Ignored in ERROR. -/
  | ignored (unit : cmdUnit w = .enc) (word : w ≠ encode .encInit) (st : u.st = .error) : EncMove c w u u
  /-- ILLEGAL_CMD. -/
  | illegal {why : ReservedWhy} (unit : cmdUnit w = .enc) (word : decode w = .reserved .enc w why)
      (st : u.st ≠ .error) : EncMove c w u (u.raise ⟨.illegalCmd, wordInfo w⟩)
  /-- SEQUENCE. -/
  | sequence (word : (∃ b, w = encode (.encBit b)) ∨ w = encode .encEnd) (st : u.st = .done) :
      EncMove c w u (u.raise ⟨.sequence, wordInfo w⟩)
  /-- ENC_BIT executes. -/
  | bit {b : Bit} {u' : EncUnit} (word : w = encode (.encBit b)) (st : u.st = .ready)
      (body : encBitBody c b u = .ok u') : EncMove c w u u'
  /-- ENC_END executes. -/
  | fin {u' : EncUnit} (word : w = encode .encEnd) (st : u.st = .ready)
      (body : encEndBody c u = .ok u') : EncMove c w u u'
  /-- FIELD_OVERFLOW. -/
  | overflow (word : (∃ b, w = encode (.encBit b)) ∨ w = encode .encEnd) (st : u.st = .ready)
      (len : c.max < u.len) : EncMove c w u (u.raise ⟨.fieldOverflow, countInfo u.len⟩)

/-- What the word `w` can make of DEC. -/
inductive DecMove (c : Config) (w : CmdWord) (u : DecUnit) : DecUnit → Prop where
  /-- The word names ENC. -/
  | other (unit : cmdUnit w = .enc) : DecMove c w u u
  /-- DEC_INIT. -/
  | init (word : w = encode .decInit) : DecMove c w u decInitUnit
  /-- Ignored in ERROR. -/
  | ignored (unit : cmdUnit w = .dec) (word : w ≠ encode .decInit) (st : u.st = .error) : DecMove c w u u
  /-- ILLEGAL_CMD. -/
  | illegal {why : ReservedWhy} (unit : cmdUnit w = .dec) (word : decode w = .reserved .dec w why)
      (st : u.st ≠ .error) : DecMove c w u (u.raise ⟨.illegalCmd, wordInfo w⟩)
  /-- SEQUENCE. -/
  | sequence (word : (∃ b, w = encode (.decBit b)) ∨ w = encode .decEnd) (st : u.st = .done) :
      DecMove c w u (u.raise ⟨.sequence, wordInfo w⟩)
  /-- DEC_BIT executes. -/
  | bit {b : Bit} {u' : DecUnit} (word : w = encode (.decBit b)) (st : u.st = .ready)
      (body : decBitBody c b u = .ok u') : DecMove c w u u'
  /-- DEC_END executes. -/
  | fin (word : w = encode .decEnd) (st : u.st = .ready) (cnt : u.cnt = 0) :
      DecMove c w u { u with st := .done }
  /-- STREAM_EXHAUSTED. -/
  | exhausted (word : w = encode .decEnd) (st : u.st = .ready) (cnt : u.cnt ≠ 0) :
      DecMove c w u (u.raise ⟨.streamExhausted, countInfo u.cnt⟩)

/-- The words of the instructions differ, so an ENC word that is not INIT's is no INIT word. -/
theorem encBit_ne_init (b : Bit) : encode (.encBit b) ≠ encode .encInit := by cases b <;> decide
theorem decBit_ne_init (b : Bit) : encode (.decBit b) ≠ encode .decInit := by cases b <;> decide

/-- A command word moves ENC in one of the ways of `EncMove`. -/
theorem commandAt_encMove (c : Config) (w : CmdWord) (s : State) :
    EncMove c w s.enc (commandAt c w s).enc := by
  obtain ⟨i, hd, hw, hu⟩ | ⟨why, hd⟩ := decode_cases w
  · simp only [commandAt, hd]
    cases i with
    | encInit => exact .init hw
    | encBit b =>
      simp only [execAt, execEncBitAt, State.setEnc_enc, EncUnit.command]
      obtain ⟨hs, h⟩ | ⟨hs, h⟩ | ⟨hs, u', hb, h⟩ | ⟨hs, e, hb, h⟩ :=
        runCommand_cases s.enc.raise (encode (.encBit b)) (encBitBody c b s.enc) s.enc s.enc.st
      · rw [h]; exact .ignored hu (hw ▸ encBit_ne_init b) hs
      · rw [h, ← hw]; exact .sequence (.inl ⟨b, hw⟩) hs
      · rw [h]; exact .bit hw hs hb
      · obtain ⟨hl, -, rfl⟩ := encBitBody_error hb
        rw [h]; exact .overflow (.inl ⟨b, hw⟩) hs hl
    | encEnd =>
      simp only [execAt, execEncEndAt, State.setEnc_enc, EncUnit.command]
      obtain ⟨hs, h⟩ | ⟨hs, h⟩ | ⟨hs, u', hb, h⟩ | ⟨hs, e, hb, h⟩ :=
        runCommand_cases s.enc.raise (encode .encEnd) (encEndBody c s.enc) s.enc s.enc.st
      · rw [h]; exact .ignored hu (hw ▸ by decide) hs
      · rw [h, ← hw]; exact .sequence (.inr hw) hs
      · rw [h]; exact .fin hw hs hb
      · by_cases hl : s.enc.len ≤ c.max
        · rw [encEndBody_of_le hl] at hb; cases hb
        · have hl := Nat.lt_of_not_le hl
          rw [encEndBody_of_gt hl] at hb
          cases hb
          rw [h]; exact .overflow (.inr hw) hs hl
    | decInit => exact .other hu
    | decBit b => exact .other hu
    | decEnd => exact .other hu
  · simp only [commandAt, hd]
    cases hu : cmdUnit w with
    | enc =>
      simp only [illegalCommand, State.setEnc_enc]
      have hd' : decode w = .reserved .enc w why := by rw [hd, hu]
      obtain ⟨hs, h⟩ | ⟨hs, h⟩ := runReserved_cases s.enc.raise w s.enc s.enc.st
      · rw [h]
        refine .ignored hu (fun hw => ?_) hs
        rw [hw] at hd; cases hd
      · rw [h]; exact .illegal hu hd' hs
    | dec => exact .other hu

/-- A command word moves DEC in one of the ways of `DecMove`. -/
theorem commandAt_decMove (c : Config) (w : CmdWord) (s : State) :
    DecMove c w s.dec (commandAt c w s).dec := by
  obtain ⟨i, hd, hw, hu⟩ | ⟨why, hd⟩ := decode_cases w
  · simp only [commandAt, hd]
    cases i with
    | decInit => exact .init hw
    | decBit b =>
      simp only [execAt, execDecBitAt, State.setDec_dec, DecUnit.command]
      obtain ⟨hs, h⟩ | ⟨hs, h⟩ | ⟨hs, u', hb, h⟩ | ⟨hs, e, hb, h⟩ :=
        runCommand_cases s.dec.raise (encode (.decBit b)) (decBitBody c b s.dec) s.dec s.dec.st
      · rw [h]; exact .ignored hu (hw ▸ decBit_ne_init b) hs
      · rw [h, ← hw]; exact .sequence (.inl ⟨b, hw⟩) hs
      · rw [h]; exact .bit hw hs hb
      · by_cases hn : s.dec.cnt + 1 = c.radix
        · rw [decBitBody_complete hn] at hb; cases hb
        · rw [decBitBody_partial hn] at hb; cases hb
    | decEnd =>
      simp only [execAt, execDecEndAt, State.setDec_dec, DecUnit.command]
      obtain ⟨hs, h⟩ | ⟨hs, h⟩ | ⟨hs, u', hb, h⟩ | ⟨hs, e, hb, h⟩ :=
        runCommand_cases s.dec.raise (encode .decEnd) (decEndBody s.dec) s.dec s.dec.st
      · rw [h]; exact .ignored hu (hw ▸ by decide) hs
      · rw [h, ← hw]; exact .sequence (.inr hw) hs
      · by_cases hn : s.dec.cnt = 0
        · rw [decEndBody_whole hn] at hb
          cases hb
          rw [h]; exact .fin hw hs hn
        · rw [decEndBody_partial hn] at hb; cases hb
      · by_cases hn : s.dec.cnt = 0
        · rw [decEndBody_whole hn] at hb; cases hb
        · rw [decEndBody_partial hn] at hb
          cases hb
          rw [h]; exact .exhausted hw hs hn
    | encInit => exact .other hu
    | encBit b => exact .other hu
    | encEnd => exact .other hu
  · simp only [commandAt, hd]
    cases hu : cmdUnit w with
    | enc => exact .other hu
    | dec =>
      simp only [illegalCommand, State.setDec_dec]
      have hd' : decode w = .reserved .dec w why := by rw [hd, hu]
      obtain ⟨hs, h⟩ | ⟨hs, h⟩ := runReserved_cases s.dec.raise w s.dec s.dec.st
      · rw [h]
        refine .ignored hu (fun hw => ?_) hs
        rw [hw] at hd; cases hd
      · rw [h]; exact .illegal hu hd' hs

/-- What one step does to the units: nothing, when it serves no command and no reset; reset; or one command word. -/
theorem stepAt_units (c : Config) (s : State) :
    ((stepAt c s).enc = s.enc ∧ (stepAt c s).dec = s.dec ∧
      (∀ w, s.port.pending.head? ≠ some (.command w)) ∧ s.port.pending.head? ≠ some .reset) ∨
    (s.port.pending.head? = some .reset ∧
      (stepAt c s).enc = EncUnit.initial ∧ (stepAt c s).dec = DecUnit.initial) ∨
    (∃ w, s.port.pending.head? = some (.command w) ∧
      EncMove c w s.enc (stepAt c s).enc ∧ DecMove c w s.dec (stepAt c s).dec) := by
  obtain ⟨hp, h⟩ | ⟨a, rest, hp, h⟩ := stepAt_cases c s
  · simp [h, hp]
  · rw [h, hp]
    cases a with
    | command w =>
      exact .inr (.inr ⟨w, rfl, commandAt_encMove c w (s.setPending rest),
        commandAt_decMove c w (s.setPending rest)⟩)
    | readStatus a => exact .inl ⟨rfl, rfl, by simp, by simp⟩
    | readOutput u => cases u <;> exact .inl ⟨rfl, rfl, by simp, by simp⟩
    | reset => exact .inr (.inl ⟨rfl, rfl, rfl⟩)

end Sys2Proof.Machine
end

