-- ==== Sys2Proof/Laws/Invocation.lean ====
section
/-! SUPPORT. What becomes of an invocation (spec 70_reset_and_hazards.md R223), and how it shows in the unit. -/

namespace Sys2Proof.Machine

@[simp] theorem State.unitSt_enc (s : State) : s.unitSt .enc = s.enc.st := rfl
@[simp] theorem State.unitSt_dec (s : State) : s.unitSt .dec = s.dec.st := rfl

@[simp] theorem invocationAt_nil (c : Config) (u : UnitId) (s : State) (v : Invocation) :
    invocationAt c u [] s v = v := rfl

@[simp] theorem invocationAt_cons (c : Config) (u : UnitId) (a : HostAction) (as : List HostAction) (s : State)
    (v : Invocation) :
    invocationAt c u (a :: as) s v =
      invocationAt c u as (serveAt c a s) (v.afterAction u a ((serveAt c a s).unitSt u)) := rfl

/-- An invocation that has ended takes no more commands. -/
theorem Invocation.take_of_ended {v : Invocation} (h : v.progress ≠ .opened) (w : CmdWord) (after : InvState) :
    v.take w after = v := by
  unfold Invocation.take
  cases hp : v.progress with
  | opened => exact absurd hp h
  | succeeded => rfl
  | failed => rfl

/-- The action begins a new invocation on the unit: its INIT, or reset. -/
def HostAction.Begins (u : UnitId) (a : HostAction) : Prop := a = .command (encode (initOf u)) ∨ a = .reset

/-- An invocation that has ended stays as it ended, whatever the host does short of INIT and reset. -/
theorem invocationAt_of_ended (c : Config) (u : UnitId) (as : List HostAction) (s : State) {v : Invocation}
    (h : v.progress ≠ .opened) (ha : ∀ a ∈ as, ¬ a.Begins u) : invocationAt c u as s v = v := by
  induction as generalizing s with
  | nil => rfl
  | cons a as ih =>
    have hb := ha a (List.mem_cons_self ..)
    have hv : ∀ st, v.afterAction u a st = v := by
      intro st
      unfold Invocation.afterAction
      cases a with
      | command w =>
        have hw : w ≠ encode (initOf u) := fun e => hb (.inl (e ▸ rfl))
        simp [hw, Invocation.take_of_ended h]
      | readStatus a => rfl
      | readOutput o => rfl
      | reset => exact absurd (.inr rfl) hb
    rw [invocationAt_cons, hv]
    exact ih _ fun a' h' => ha a' (List.mem_cons_of_mem _ h')

/-- How an invocation shows in the state of its unit: READY while it is open, DONE once it has succeeded until a
later command raises an error, ERROR once it has failed. -/
def Invocation.Shows (v : Invocation) (st : InvState) : Prop :=
  match v.progress with
  | .opened => st = .ready
  | .succeeded => st = .done ∨ st = .error
  | .failed => st = .error

/-- What one command word can make of the invocation state of the unit it names, if it is no INIT. -/
theorem commandAt_unitSt (c : Config) {u : UnitId} {w : CmdWord} (s : State) (hw : w ≠ encode (initOf u)) :
    s.unitSt u = .ready ∨ (commandAt c w s).unitSt u = s.unitSt u ∨ (commandAt c w s).unitSt u = .error := by
  cases u with
  | enc =>
    simp only [State.unitSt_enc]
    generalize he : (commandAt c w s).enc = e
    have m := he ▸ commandAt_encMove c w s
    cases m with
    | init word => exact absurd word hw
    | other => exact .inr (.inl rfl)
    | ignored => exact .inr (.inl rfl)
    | illegal => exact .inr (.inr rfl)
    | sequence => exact .inr (.inr rfl)
    | bit _ st => exact .inl st
    | fin _ st => exact .inl st
    | overflow _ st => exact .inl st
  | dec =>
    simp only [State.unitSt_dec]
    generalize hd : (commandAt c w s).dec = d
    have m := hd ▸ commandAt_decMove c w s
    cases m with
    | init word => exact absurd word hw
    | other => exact .inr (.inl rfl)
    | ignored => exact .inr (.inl rfl)
    | illegal => exact .inr (.inr rfl)
    | sequence => exact .inr (.inr rfl)
    | bit _ st => exact .inl st
    | fin _ st => exact .inl st
    | exhausted _ st => exact .inl st

/-- A command word that does not name a unit leaves the unit's invocation state. -/
theorem commandAt_unitSt_other (c : Config) {u : UnitId} {w : CmdWord} (s : State) (hu : cmdUnit w ≠ u) :
    (commandAt c w s).unitSt u = s.unitSt u := by
  obtain ⟨i, hd, rfl, hi⟩ | ⟨why, hd⟩ := decode_cases w
  · rw [commandAt, hd]
    cases u <;> cases i <;> first | rfl | exact absurd hi hu
  · rw [commandAt, hd]
    cases u <;> cases hc : cmdUnit w <;> first | rfl | exact absurd hc hu

/-- Every action of the host keeps the invocation and the unit's state in step. -/
theorem Invocation.shows_afterAction (c : Config) (u : UnitId) (a : HostAction) (s : State) {v : Invocation}
    (h : v.Shows (s.unitSt u)) :
    (v.afterAction u a ((serveAt c a s).unitSt u)).Shows ((serveAt c a s).unitSt u) := by
  cases a with
  | readStatus a => cases u <;> exact h
  | readOutput o => cases o <;> cases u <;> exact h
  | reset => cases u <;> rfl
  | command w =>
    simp only [Invocation.afterAction, serveAt]
    by_cases hw : w = encode (initOf u)
    · subst hw
      cases u <;> rfl
    · rw [if_neg hw]
      by_cases hu : cmdUnit w = u
      · rw [if_pos hu]
        have hc := commandAt_unitSt c s hw
        unfold Invocation.take
        unfold Invocation.Shows at h ⊢
        cases hp : v.progress with
        | opened =>
          simp only [progressAfter]
          cases (commandAt c w s).unitSt u <;> simp
        | succeeded =>
          simp only [hp] at h ⊢
          obtain hc | hc | hc := hc
          · rw [hc] at h
            simp at h
          · rw [hc]; exact h
          · exact .inr hc
        | failed =>
          simp only [hp] at h ⊢
          obtain hc | hc | hc := hc
          · rw [hc] at h
            cases h
          · rw [hc]; exact h
          · exact hc
      · rw [if_neg hu, commandAt_unitSt_other c s hu]
        exact h

/-- A result can be read only of an invocation that has succeeded (R223). -/
theorem Invocation.succeeded_of_done {v : Invocation} (h : v.Shows .done) : v.progress = .succeeded := by
  unfold Invocation.Shows at h
  cases hp : v.progress with
  | succeeded => rfl
  | opened => rw [hp] at h; cases h
  | failed => rw [hp] at h; cases h

end Sys2Proof.Machine
end

