-- ==== Sys2Proof/Laws/PerInstr.lean ====
section
/-! SUPPORT. Per-instruction families. EncodeDecode: the word of an instruction decodes to it. -/

namespace Sys2Proof.Laws.EncodeDecode

/-- The word of `i` decodes to `i`, and `i` is well formed. -/
def Statement (i : Instr) : Prop := i.wf = true ∧ Sys2Proof.decode (Sys2Proof.encode i) = .instr i

theorem encInit : Statement .encInit := ⟨rfl, by decide⟩
theorem encBit (b : Bit) : Statement (.encBit b) := ⟨rfl, by cases b <;> decide⟩
theorem encEnd : Statement .encEnd := ⟨rfl, by decide⟩
theorem decInit : Statement .decInit := ⟨rfl, by decide⟩
theorem decBit (b : Bit) : Statement (.decBit b) := ⟨rfl, by cases b <;> decide⟩
theorem decEnd : Statement .decEnd := ⟨rfl, by decide⟩

end Sys2Proof.Laws.EncodeDecode
end

