-- ==== Sys2Proof/Tests/Slice0.lean ====
section
/-! SUPPORT. Tests, their expected results from spec 95_test_vectors.md (the vector's name stands in each
comment) or written out from the rule named, and a witness for the hypotheses of every statement that has
any. -/

namespace Sys2Proof.Tests

open Sys2Proof Sys2Proof.Machine

/-! ## Small states -/

/-- ENC with no error recorded. -/
def encU (st : InvState) (cur : Bit) (len : Nat) (out : List Nat) : EncUnit :=
  { st := st, err := .none, einfo := 0, cur := cur, len := len, out := out }

/-- DEC with no error recorded. -/
def decU (st : InvState) (cur : Bit) (acc cnt : Nat) (out : List Bit) : DecUnit :=
  { st := st, err := .none, einfo := 0, cur := cur, acc := acc, cnt := cnt, out := out }

/-- ENC in ERROR SEQUENCE 0x03 (Q7). -/
def encErr : EncUnit := { encU .done false 2 [0, 3, 2] with st := .error, err := .sequence, einfo := 0x03 }

/-- DEC in ERROR STREAM_EXHAUSTED 4 (W1, P4). -/
def decErr : DecUnit :=
  { decU .ready true 5 4 [false, false, false] with st := .error, err := .streamExhausted, einfo := 4 }

/-- A state with these units and these actions issued. -/
def st (e : EncUnit) (d : DecUnit) (as : List HostAction) : State :=
  { enc := e, dec := d, port := { pending := as, answers := [] } }

/-- The next state of an outcome, if it is one. -/
def nextOf (o : Host.Outcome State Fault Refusal) : Option State :=
  match o with
  | .next s => some s
  | .fault _ => none
  | .refused _ => none

/-- The state after one command word on `e` and `d`. -/
def after (w : CmdWord) (e : EncUnit) (d : DecUnit) : Option (EncUnit × DecUnit) :=
  (nextOf (step (st e d [.command w]))).map fun s => (s.enc, s.dec)

/-- ENC after one command word, with DEC at reset. -/
def encAfter (w : CmdWord) (e : EncUnit) : Option EncUnit := (after w e DecUnit.initial).map (·.1)

/-- DEC after one command word, with ENC at reset. -/
def decAfter (w : CmdWord) (d : DecUnit) : Option DecUnit := (after w EncUnit.initial d).map (·.2)

/-! ## Well-formedness: RADIX 0 and 33 are refused (R7), and so are the assembler items R80 and R81 exclude.
An instruction has no ill-formed term: its operand is a bit. -/

theorem test_wf_radix_0 : Config.wf ⟨0⟩ = false := by decide
theorem test_wf_radix_33 : Config.wf ⟨33⟩ = false := by decide
theorem test_wf_hw : Config.wf Config.hw = true := by decide
theorem test_wf_word_not_reserved : (Asm.Item.word 0x2).wf Config.hw = false := by decide
theorem test_wf_field_above_max : (Asm.Item.decField 256).wf Config.hw = false := by decide
theorem test_wf_stream_above_max : (Asm.Item.decStream [0, 256]).wf Config.hw = false := by decide

/-! ## Decoding: words written bit by bit from R71 and R73 -/

theorem test_decode_encInit : decode 0b0000#4 = .instr .encInit := by decide
theorem test_decode_encBit0 : decode 0b0010#4 = .instr (.encBit false) := by decide
theorem test_decode_encBit1 : decode 0b0011#4 = .instr (.encBit true) := by decide
theorem test_decode_encEnd : decode 0b0100#4 = .instr .encEnd := by decide
theorem test_decode_decInit : decode 0b1000#4 = .instr .decInit := by decide
theorem test_decode_decBit0 : decode 0b1010#4 = .instr (.decBit false) := by decide
theorem test_decode_decBit1 : decode 0b1011#4 = .instr (.decBit true) := by decide
theorem test_decode_decEnd : decode 0b1100#4 = .instr .decEnd := by decide
theorem test_decode_init_with_operand : decode 0b0001#4 = .reserved .enc 0b0001 .initWithOperand := by decide
theorem test_decode_end_with_operand : decode 0b1101#4 = .reserved .dec 0b1101 .endWithOperand := by decide
theorem test_decode_op_reserved : decode 0b0111#4 = .reserved .enc 0b0111 .opReserved := by decide

/-- opcode_table.json: a word decodes to an instruction exactly when one row covers it, the instruction's. -/
theorem test_table_agrees_with_decoder : ∀ w : CmdWord,
    (opcodeTable.filter fun r => r.covers w).map OpcodeRow.mnemonic =
      match decode w with
      | .instr i => [i.mnemonic]
      | .reserved _ _ _ => [] := by decide

theorem test_table_word_runs_first :
    nextOf (step (State.reset.withFetchWord 8 0x3)) = nextOf (exec (.encBit true) State.reset) := by decide
theorem test_table_word_reserved : decodeTableWord 8 0x6 = none := by decide

/-! ## One step of each instruction -/

-- V1
theorem test_encInit : encAfter 0x0 (encU .done false 2 [0, 3, 2]) = some (encU .ready false 0 []) := by decide
-- Q8
theorem test_encInit_from_error : encAfter 0x0 encErr = some (encU .ready false 0 []) := by decide
-- V3
theorem test_encBit_leading_zero : encAfter 0x3 (encU .ready false 0 []) = some (encU .ready true 1 [0]) := by decide
-- V6
theorem test_encBit_overflow_pair :
    encAfter 0x2 (encU .ready false 255 []) = some (encU .ready false 1 [255, 0]) := by decide
-- V9
theorem test_encEnd_empty : encAfter 0x4 (encU .ready false 0 []) = some (encU .done false 0 []) := by decide
-- V10
theorem test_encEnd : encAfter 0x4 (encU .ready false 2 [0, 3]) = some (encU .done false 2 [0, 3, 2]) := by decide
-- W1
theorem test_decInit : decAfter 0x8 decErr = some (decU .ready false 0 0 []) := by decide
-- Q9
theorem test_decInit_names_its_own_unit : after 0x0 encErr decErr = some (encU .ready false 0 [], decErr) := by decide
-- W5
theorem test_decBit_completes :
    decAfter 0xB (decU .ready true 1 7 []) = some (decU .ready false 0 0 [true, true, true]) := by decide
-- W2
theorem test_decBit_first : decAfter 0xB (decU .ready false 0 0 []) = some (decU .ready false 1 1 []) := by decide
-- W6
theorem test_decEnd_empty : decAfter 0xC (decU .ready false 0 0 []) = some (decU .done false 0 0 []) := by decide
-- W7
theorem test_decEnd_partial :
    decAfter 0xC (decU .ready true 5 4 [false, false, false]) = some decErr := by decide

/-! ## RADIX 1, and the reserved words -/

-- V12
theorem test_encBit_radix_1 :
    (execAt ⟨1⟩ (.encBit false) (st (encU .ready false 1 []) DecUnit.initial [])).enc =
      encU .ready false 1 [1, 0] := by decide
-- W9
theorem test_decBit_radix_1 :
    (execAt ⟨1⟩ (.decBit true) (st EncUnit.initial (decU .ready false 0 0 []) [])).dec =
      decU .ready true 0 0 [false] := by decide
-- Q3
theorem test_illegal_before_sequence :
    encAfter 0x6 (encU .done false 1 [1]) =
      some { encU .done false 1 [1] with st := .error, err := .illegalCmd, einfo := 0x06 } := by decide
-- Q7
theorem test_ignored_in_error : encAfter 0x7 encErr = some encErr := by decide

/-! ## Status registers (section 2.6) -/

theorem test_status_ready_cur : (encU .ready true 0 []).statusByte = 0x20 := by decide
theorem test_status_sequence_cur :
    ({ encU .done true 1 [] with st := .error, err := .sequence, einfo := 3 } : EncUnit).statusByte = 0x2A := by
  decide
-- P4: DEC_STATUS 0x2E, DEC_CNT 4
theorem test_status_exhausted :
    statusRead (st EncUnit.initial decErr []) 4 = 0x2E ∧ statusRead (st EncUnit.initial decErr []) 6 = 4 := by
  decide

/-! ## Framing and streams -/

-- E16
theorem test_encode_pair_inside_run : Framing.encode Config.hw
    (List.replicate 3 false ++ List.replicate 300 true ++ [false]) = [3, 255, 0, 45, 1] := by decide +kernel
-- E20
theorem test_encode_radix_2 :
    Framing.encode ⟨2⟩ (List.replicate 7 false ++ [true]) = [3, 0, 3, 0, 1, 1] := by decide
-- X6
theorem test_decode_leading_zero : Framing.decode [0, 3, 2] = [true, true, true, false, false] := by decide
-- section 2.7
theorem test_ser : Stream.ser ⟨2⟩ [3, 0, 1] = [true, true, false, false, false, true] := by decide
theorem test_pack : Stream.packBytes 0 (Stream.ser Config.hw [0, 3, 2]) = [0x00, 0x03, 0x02] := by decide
-- R102 from its pseudocode: 2*MAX is one pair and a last field MAX (E7)
theorem test_split_twice_max : Framing.split Config.hw 510 = [255, 0, 255] := by decide

/-! ## Assembler (R80, R81) -/

theorem test_asm_run : Asm.assembleLine Config.hw "enc.run 1, 3".toList = some [0x3, 0x3, 0x3] := by decide
-- P2
theorem test_asm_field : Asm.assembleLine Config.hw "dec.field 2".toList =
    some [0xA, 0xA, 0xA, 0xA, 0xA, 0xA, 0xB, 0xA] := by decide
theorem test_asm_stream : Asm.assembleLine ⟨2⟩ "dec.stream [3, 0]".toList =
    some [0x8, 0xB, 0xB, 0xA, 0xA, 0xC] := by decide
theorem test_asm_operand_rejected : Asm.assembleLine Config.hw "enc.bit 2".toList = none := by decide
theorem test_asm_word_legal_rejected : Asm.assembleLine Config.hw ".word 0x0".toList = none := by decide

/-! ## Witnesses: a state and operands that meet all the hypotheses of each statement -/

theorem witness_StepExecutesTheDecodedCommand :
    (st EncUnit.initial DecUnit.initial [.command 0x2, .reset]).port.pending = .command 0x2 :: [.reset] ∧
      decode 0x2 = .instr (.encBit false) := by decide

theorem witness_IssuedTableWordIsExecuted : decodeTableWord 8 0xC = some .decEnd := by decide

/-- Clause ENC at its lowest word and DEC at its highest, one in READY and one in DONE. -/
theorem witness_ReservedWordRaisesIllegalCommand :
    (0x1 ∈ ([0x1, 0x5, 0x6, 0x7, 0x9, 0xD, 0xE, 0xF] : List CmdWord) ∧
      (0x1 : CmdWord).getLsbD 3 = false ∧ EncUnit.initial.st ≠ .error) ∧
    (0xF ∈ ([0x1, 0x5, 0x6, 0x7, 0x9, 0xD, 0xE, 0xF] : List CmdWord) ∧
      (0xF : CmdWord).getLsbD 3 = true ∧ (decU .done false 0 0 []).st ≠ .error) := by decide

theorem witness_InputAfterEndRaisesSequence :
    (0x4 ∈ ([0x2, 0x3, 0x4] : List CmdWord) ∧ (encU .done true 1 [0, 1]).st = .done) ∧
    (0xA ∈ ([0xA, 0xB, 0xC] : List CmdWord) ∧ (decU .done false 0 0 []).st = .done) := by decide

theorem witness_UnitInErrorIgnoresAllButInit :
    ((0x7 : CmdWord).getLsbD 3 = false ∧ (0x7 : CmdWord) ≠ 0x0 ∧ encErr.st = .error) ∧
    ((0x9 : CmdWord).getLsbD 3 = true ∧ (0x9 : CmdWord) ≠ 0x8 ∧ decErr.st = .error) := by decide

/-- A step that puts ENC in ERROR, and one that puts DEC there. -/
theorem witness_ErrorEntryWritesOnlyTheErrorFields :
    (∃ t, step (st (encU .done false 1 [1]) DecUnit.initial [.command 0x3]) = .next t ∧ t.enc.st = .error) ∧
    (∃ t, step (st EncUnit.initial (decU .ready false 1 7 []) [.command 0xC]) = .next t ∧
      t.dec.st = .error) := ⟨⟨_, rfl, by decide⟩, ⟨_, rfl, by decide⟩⟩

theorem witness_OnlyInitOrResetLeavesError :
    (∃ t, step (st encErr decErr [.command 0x0]) = .next t ∧ encErr.st = .error ∧ t.enc.st ≠ .error) ∧
    (∃ t, step (st encErr decErr [.reset]) = .next t ∧ decErr.st = .error ∧ t.dec.st ≠ .error) :=
  ⟨⟨_, rfl, by decide⟩, ⟨_, rfl, by decide⟩⟩

theorem witness_DoneIsLeftOnlyByInitResetOrError :
    (∃ t, step (st (encU .done false 1 [1]) DecUnit.initial [.command 0x6]) = .next t ∧
      t.enc ≠ encU .done false 1 [1]) ∧
    (∃ t, step (st EncUnit.initial (decU .done true 0 0 []) [.command 0xC]) = .next t ∧
      t.dec ≠ decU .done true 0 0 []) := ⟨⟨_, rfl, by decide⟩, ⟨_, rfl, by decide⟩⟩

/-- The boundary of the run length, in each of the three states. -/
theorem witness_EncBitCountsTheRun :
    ((encU .ready false 255 []).len ≤ 255 ∧ (encU .ready false 255 []).st = .ready) ∧
    ((encU .done false 255 [255]).len ≤ 255 ∧ (encU .done false 255 [255]).st = .done) ∧
    (encErr.len ≤ 255 ∧ encErr.st = .error) := by decide

theorem witness_EncEndEmitsTheLastField :
    ((encU .ready false 255 []).len ≤ 255 ∧ (encU .ready false 255 []).len ≠ 0 ∧
      (encU .ready false 255 []).st = .ready) ∧
    ((encU .ready false 0 []).len = 0 ∧ (encU .ready false 0 []).st = .ready) ∧
    ((encU .done false 0 []).len ≤ 255 ∧ (encU .done false 0 []).st = .done) ∧
    (encErr.len ≤ 255 ∧ encErr.st = .error) := by decide

theorem witness_DecBitAssemblesTheField :
    ((decU .ready true 127 7 []).st = .ready ∧ (decU .ready true 127 7 []).cnt + 1 = 8) ∧
    ((decU .ready true 63 6 []).st = .ready ∧ (decU .ready true 63 6 []).cnt + 1 ≠ 8) ∧
    (decU .done true 0 0 []).st = .done ∧ decErr.st = .error := by decide

theorem witness_DecEndAcceptsOnlyWholeFields :
    ((decU .ready false 0 0 []).cnt < 8 ∧ (decU .ready false 0 0 []).st = .ready ∧
      (decU .ready false 0 0 []).cnt = 0) ∧
    ((decU .ready false 1 7 []).cnt < 8 ∧ (decU .ready false 1 7 []).st = .ready ∧
      (decU .ready false 1 7 []).cnt ≠ 0) ∧
    ((decU .done false 0 0 []).cnt < 8 ∧ (decU .done false 0 0 []).st = .done) ∧
    (decErr.cnt < 8 ∧ decErr.st = .error) := by decide

/-- Both ends of the legal range of RADIX, with a run of length MAX. It is also the witness of every
statement whose only hypothesis is `c.Legal`. -/
theorem witness_InstructionEffectsAtEveryRadix :
    (Config.Legal ⟨1⟩ ∧ (encU .ready false 1 []).len ≤ Config.max ⟨1⟩) ∧
    (Config.Legal ⟨32⟩ ∧ (encU .ready false 4294967295 []).len ≤ Config.max ⟨32⟩) ∧
    (encU .ready false 1 []).st = .ready ∧
    ((decU .ready false 0 0 []).st = .ready ∧ (decU .ready false 0 0 []).cnt < 1) ∧
    ((decU .ready false 0 31 []).st = .ready ∧ (decU .ready false 0 31 []).cnt < 32) := by decide

theorem witness_InstructionTouchesOnlyItsUnit :
    (∃ t, exec (.encBit true) State.reset = .next t) ∧ (Instr.encBit true).unit = .enc ∧
    (∃ t, exec .decEnd State.reset = .next t) ∧ Instr.decEnd.unit = .dec :=
  ⟨⟨_, rfl⟩, rfl, ⟨_, rfl⟩, rfl⟩

theorem witness_BitCommandsKeepStatusAndError :
    (∃ t, exec (.encBit false) (st (encU .ready false 255 []) DecUnit.initial []) = .next t) ∧
    (encU .ready false 255 []).st = .ready ∧ (encU .ready false 255 []).len ≤ 255 ∧
    (∃ t, exec (.decBit true) (st EncUnit.initial (decU .ready false 127 7 []) []) = .next t) ∧
    (decU .ready false 127 7 []).st = .ready :=
  ⟨⟨_, rfl⟩, rfl, by decide, ⟨_, rfl⟩, rfl⟩

theorem witness_EndCommandsKeepTheData :
    (∃ t, exec .encEnd (st (encU .ready true 255 [0]) DecUnit.initial []) = .next t ∧ t.enc.st = .done) ∧
    (∃ t, exec .decEnd (st EncUnit.initial (decU .ready true 0 0 []) []) = .next t ∧ t.dec.st = .done) :=
  ⟨⟨_, rfl, by decide⟩, ⟨_, rfl, by decide⟩⟩

/-- A word of each kind: an INIT, a reset, and a word that loses no output. -/
theorem witness_OutputIsLostOnlyByInitOrReset :
    (st (encU .ready true 1 [0]) decErr [.command 0x0]).nextAction = some (.command 0x0) ∧
    (st (encU .ready true 1 [0]) decErr [.command 0x8]).nextAction = some (.command 0x8) ∧
    (st (encU .ready true 1 [0]) decErr [.reset]).nextAction = some .reset ∧
    (st (encU .ready true 1 [0]) decErr [.command 0x4]).nextAction ≠ some (.command 0x0) ∧
    (st (encU .ready true 1 [0]) decErr [.command 0x4]).nextAction ≠ some (.command 0x8) ∧
    (st (encU .ready true 1 [0]) decErr [.command 0x4]).nextAction ≠ some .reset ∧
    (∃ t, step (st (encU .ready true 1 [0]) decErr [.command 0x4]) = .next t) :=
  ⟨by decide, by decide, by decide, by decide, by decide, by decide, ⟨_, rfl⟩⟩

theorem witness_ResetIsInitOfBothUnits : ∃ t, serve .reset (st encErr decErr []) = .next t := ⟨_, rfl⟩

theorem witness_StatusRegisterMap : (st encErr { decErr with cnt := 255 } []).dec.cnt < 256 := by decide

theorem witness_ReadsHaveNoSideEffect :
    (st encErr decErr [.readStatus 7]).port.pending = [.readStatus 7] ∧
    (st encErr decErr [.readOutput .enc]).port.pending = [.readOutput .enc] ∧
    (st encErr decErr [.readOutput .dec]).port.pending = [.readOutput .dec] ∧
    (∃ t, step (st encErr decErr [.command 0x0]) = .next t ∧
      (t.enc ≠ (st encErr decErr [.command 0x0]).enc ∨ t.dec ≠ (st encErr decErr [.command 0x0]).dec)) :=
  ⟨by decide, by decide, by decide, ⟨_, rfl, by decide⟩⟩

theorem witness_ActionsAreServedInIssueOrder :
    (st encErr decErr [.command 0x0, .readStatus 0, .reset]).port.pending =
      [.command 0x0, .readStatus 0] ++ [.reset] := by decide

theorem witness_UnitsDoNotInterfere :
    (st encErr decErr []).enc = (st encErr DecUnit.initial []).enc ∧
    (st encErr decErr []).dec = (st EncUnit.initial decErr []).dec := by decide

/-- A state with a run of length MAX in ENC and a partial field of seven ones in ERROR in DEC. -/
def busy (as : List HostAction) : State :=
  st (encU .ready true 255 [0])
    { decU .ready true 127 7 [] with st := .error, err := .streamExhausted, einfo := 7 } as

theorem busy_inv (as : List HostAction) : (busy as).Inv Config.hw := by
  constructor
  · constructor <;> first | (constructor <;> simp [busy, st, encU]) | simp [busy, st, encU]
  · constructor <;> first | (constructor <;> simp [busy, st, decU]) | simp [busy, st, decU, countInfo]

theorem witness_EmitFieldFailsRatherThanTruncates :
    255 ≤ Config.hw.max ∧ Config.hw.max < 256 ∧ (encU .ready false 256 []).st = .ready ∧
      255 < (encU .ready false 256 []).len ∧ true ≠ (encU .ready false 256 []).cur ∧
      (busy [.command 0x4]).Inv Config.hw ∧ ∃ t, step (busy [.command 0x4]) = .next t :=
  ⟨by decide, by decide, rfl, by decide, by decide, busy_inv _, ⟨_, rfl⟩⟩

theorem witness_RegisterValuesFitTheirWidths : Config.hw.Legal ∧ (busy []).Inv Config.hw :=
  ⟨by decide, busy_inv []⟩

theorem witness_StepKeepsUnitInvariants :
    Config.hw.Legal ∧ (busy [.command 0x3]).Inv Config.hw ∧ ∃ t, step (busy [.command 0x3]) = .next t :=
  ⟨by decide, busy_inv _, ⟨_, rfl⟩⟩

/-- ENC after the input 1, and DEC after seven ones of a field. -/
def counting (as : List HostAction) : State := st (encU .ready true 1 [0]) (decU .ready false 127 7 []) as

theorem counting_inv (as : List HostAction) : (counting as).Inv Config.hw := by
  constructor
  · constructor <;> first | (constructor <;> simp [counting, st, encU]) | simp [counting, st, encU]
  · constructor <;> first | (constructor <;> simp [counting, st, decU]) | simp [counting, st, decU]

theorem counting_follows (as : List HostAction) :
    (counting as).enc.Follows Config.hw [true] ∧ (counting as).dec.Tracks Config.hw (List.replicate 7 true) :=
  ⟨⟨rfl, rfl⟩, rfl, rfl, rfl, rfl⟩

/-- A witness of every clause: each of these actions, with the other hypotheses. -/
theorem witness_StepKeepsOutputsTheRulesGive :
    Config.hw.Legal ∧
    (∀ as, (counting as).Inv Config.hw ∧ (counting as).enc.Follows Config.hw [true] ∧
      (counting as).dec.Tracks Config.hw (List.replicate 7 true) ∧
      (counting as).enc.st = .ready ∧ (counting as).dec.st = .ready) ∧
    (counting [.command 0x3]).nextAction = some (.command (encode (.encBit true))) ∧
    (counting [.command 0x0]).nextAction = some (.command (encode .encInit)) ∧
    (counting [.command 0xB]).nextAction = some (.command (encode (.decBit true))) ∧
    (counting [.command 0x8]).nextAction = some (.command (encode .decInit)) ∧
    (counting [.reset]).nextAction = some .reset ∧
    (∀ i ∈ [Instr.encInit, .encBit false, .encBit true, .decInit, .decBit false, .decBit true],
      (counting [.command 0x4]).nextAction ≠ some (.command (encode i))) ∧
    (counting [.command 0x4]).nextAction ≠ some .reset :=
  ⟨by decide, fun as => ⟨counting_inv as, (counting_follows as).1, (counting_follows as).2, rfl, rfl⟩,
    by decide, by decide, by decide, by decide, by decide, by decide, by decide⟩

/-! ## Invocations (R223), program P5 -/

/-- The words of P5 up to the `enc.bit 0` that raises SEQUENCE in DONE: the invocation ended at `enc.end`, so it
succeeded, and the word after it is no command of it. -/
theorem test_invocation_first_end_counts :
    invocationFromReset Config.hw .enc ([0x0, 0x3, 0x8, 0x4, 0x2].map .command) =
      { words := [0x0, 0x3, 0x4], progress := .succeeded } ∧
    (actionsAt Config.hw ([0x0, 0x3, 0x8, 0x4, 0x2].map .command) State.reset).enc.st = .error := by decide

/-- All of P5: the second encode invocation fails at 0x7, the decode invocation at 0xD. -/
theorem test_invocation_failed :
    invocationFromReset Config.hw .enc ([0x0, 0x3, 0x8, 0x4, 0x2, 0x5, 0x0, 0x7, 0xD].map .command) =
      { words := [0x0, 0x7], progress := .failed } ∧
    invocationFromReset Config.hw .dec ([0x0, 0x3, 0x8, 0x4, 0x2, 0x5, 0x0, 0x7, 0xD].map .command) =
      { words := [0x8, 0xD], progress := .failed } := by decide

theorem witness_EncoderMidStreamOutput : Config.hw.Legal ∧ [true] ≠ ([] : List Bit) := by decide

/-- A stream of whole fields and one that ends inside a field, at RADIX 1 and at RADIX 8. -/
theorem witness_DecoderComputesDecode :
    (Config.Legal ⟨1⟩ ∧ (List.replicate 3 true).length % (1 : Nat) = 0) ∧
    (Config.hw.Legal ∧ (List.replicate 15 true).length % Config.hw.radix ≠ 0) := by decide

/-- The round trip of the input 1: the pending list of the statement, for some state. -/
theorem witness_BitmapRoundTripOnTheMachine :
    ∃ s : State, s.port.pending =
      ((Asm.Item.expand Config.hw (.encStream [true]) ++
        Asm.Item.expand Config.hw (.decStream (Framing.encode Config.hw [true]))).map HostAction.command ++
        [.readOutput .enc, .readOutput .dec]) ++ [.reset] := ⟨State.reset.setPending _, rfl⟩

/-- The largest field, at a field boundary. -/
theorem witness_FieldMeansCopiesThenFlip :
    Config.hw.Legal ∧ 255 ≤ Config.hw.max ∧ (decU .ready true 0 0 [false]).st = .ready ∧
      (decU .ready true 0 0 [false]).cnt = 0 ∧ (decU .ready true 0 0 [false]).acc = 0 := by decide

theorem witness_EncoderEmissionBounds :
    (busy []).Inv Config.hw ∧ (busy []).enc.st = .ready ∧ (Instr.encBit true).unit = .enc ∧
      Instr.encBit true ≠ .encInit ∧ ∃ t, exec (.encBit true) (busy []) = .next t :=
  ⟨busy_inv [], rfl, rfl, by decide, ⟨_, rfl⟩⟩

theorem witness_DecoderEmissionBounds :
    (counting []).Inv Config.hw ∧ (counting []).dec.st = .ready ∧
      ∃ t, exec (.decBit true) (counting []) = .next t :=
  ⟨counting_inv [], rfl, ⟨_, rfl⟩⟩

/-- A run at MAX and one above it. -/
theorem witness_SplitIsTheOverflowLoop :
    Config.hw.Legal ∧ 1 ≤ 255 ∧ 255 ≤ Config.hw.max ∧ Config.hw.max < 256 := by decide

theorem witness_EncodeOfASingleRun : Config.hw.Legal ∧ 1 ≤ 255 ∧ 255 ≤ Config.hw.max := by decide

/-- A parse of `[0, 255, 0, 5]`, and a field 0 that stands first and one right after a MAX. -/
theorem witness_CanonicalStreamsAreTheGrammar :
    Config.hw.Legal ∧ Framing.Canonical Config.hw [0, 255, 0, 5] ∧
      Framing.Parse Config.hw [0, 255, 0, 5] true [[255, 0, 5]] ∧
      ([0, 255, 0, 5] : List Nat)[0]? = some 0 ∧ ([0, 255, 0, 5] : List Nat)[2]? = some 0 := by
  refine ⟨by decide, ⟨List.replicate 260 true, by decide +kernel⟩, ⟨by decide, ?_, by decide⟩, rfl, rfl⟩
  intro g hg
  rw [List.mem_singleton] at hg
  rw [hg]
  exact .pair (.last (by decide) (by decide))

theorem witness_EncodingExtendsByPrefix :
    Config.hw.Legal ∧ [true] ≠ ([] : List Bit) ∧ [true] <+: [true, true, false] := by decide

/-- The last bit of the last field. -/
theorem witness_SerialFormIsMostSignificantBitFirst :
    1 < ([255, 1] : List Nat).length ∧ 7 < Config.hw.radix := by decide

theorem witness_SerAndDeserAreInverse :
    Config.hw.Legal ∧ (∀ f ∈ [0, 255], f ≤ Config.hw.max) ∧
      Stream.deser Config.hw (List.replicate 8 true) = some [255] := by decide

theorem witness_PackingPutsTheFirstBitHighest : 8 < (List.replicate 9 true).length := by decide

theorem witness_PackedEncodingHasOneByteAField : ∀ f ∈ [0, 255], f ≤ 255 := by decide

theorem witness_AssemblerGivesTheWordOfEachMnemonic :
    Asm.parseItem "enc.end".toList [] = some (.instr .encEnd) ∧
    Asm.parseItem "dec.bit".toList [['1']] = some (.instr (.decBit true)) ∧
    Asm.parseLine ".word 0x1".toList = some (some (.word 0x1)) ∧
    (Asm.Item.word 0x1).wf Config.hw = true ∧ 0x1 ∈ (Asm.Item.word 0x1).expand Config.hw ∧
    Asm.isReserved 0x1 = true := by decide

theorem witness_DecodeAndEncodeAgree :
    (Instr.decBit true).wf = true ∧ decode 0x4 = .instr .encEnd := by decide

end Sys2Proof.Tests
end

section
/-! PROOF. The effect of the six instructions in READY at every RADIX (spec 41_encoder.md R130 to R134;
42_decoder.md R160 to R164; 60_exceptions.md R193). -/

namespace Sys2Proof.Machine

section command

variable {w : CmdWord}

/-- In READY a body that completes is the command's effect on ENC (R76 step 5). -/
theorem EncUnit.command_ready_ok {u u' : EncUnit} {body : Except Raised EncUnit}
    (hst : u.st = .ready) (hbody : body = .ok u') : u.command w body = u' := by
  rw [EncUnit.command, hst, hbody, runCommand_ready_ok]

/-- In READY a body that completes is the command's effect on DEC (R76 step 5). -/
theorem DecUnit.command_ready_ok {u u' : DecUnit} {body : Except Raised DecUnit}
    (hst : u.st = .ready) (hbody : body = .ok u') : u.command w body = u' := by
  rw [DecUnit.command, hst, hbody, runCommand_ready_ok]

/-- In READY a body that raises leaves the error entry alone on DEC (R195). -/
theorem DecUnit.command_ready_error {u : DecUnit} {e : Raised} {body : Except Raised DecUnit}
    (hst : u.st = .ready) (hbody : body = .error e) : u.command w body = u.raise e := by
  rw [DecUnit.command, hst, hbody, runCommand_ready_error]

end command

section ready

variable (c : Config) (b : Bit) {s : State}

/-- ENC_BIT in READY (R133): the overflow pair, the run going on, or the run's end. -/
theorem execAt_encBit_ready (hst : s.enc.st = .ready) (hlen : s.enc.len ≤ c.max) :
    execAt c (.encBit b) s = s.setEnc
      (if b = s.enc.cur then
        if s.enc.len = c.max then { s.enc with len := 1, out := s.enc.out ++ [c.max, 0] }
        else { s.enc with len := s.enc.len + 1 }
      else { s.enc with cur := b, len := 1, out := s.enc.out ++ [s.enc.len] }) := by
  refine congrArg s.setEnc (EncUnit.command_ready_ok hst ?_)
  split_ifs with hcur hmax
  · exact encBitBody_pair hcur hmax
  · exact encBitBody_continue hcur hmax
  · exact encBitBody_change hcur hlen

/-- ENC_END in READY (R134): the held length, if there is one, is emitted. -/
theorem execAt_encEnd_ready (hst : s.enc.st = .ready) (hlen : s.enc.len ≤ c.max) :
    execAt c .encEnd s = s.setEnc
      { s.enc with st := .done, out := s.enc.out ++ if s.enc.len = 0 then [] else [s.enc.len] } :=
  congrArg s.setEnc (EncUnit.command_ready_ok hst (encEndBody_of_le hlen))

/-- DEC_BIT in READY (R163): the field is completed and its run emitted, or it grows by one bit. -/
theorem execAt_decBit_ready (hst : s.dec.st = .ready) :
    execAt c (.decBit b) s = s.setDec
      (if s.dec.cnt + 1 = c.radix then
        { s.dec with cur := !s.dec.cur, acc := 0, cnt := 0,
                     out := s.dec.out ++ List.replicate (shiftIn s.dec.acc b) s.dec.cur }
      else { s.dec with acc := shiftIn s.dec.acc b, cnt := s.dec.cnt + 1 }) := by
  refine congrArg s.setDec (DecUnit.command_ready_ok hst ?_)
  split_ifs with hcnt
  · exact decBitBody_complete hcnt
  · exact decBitBody_partial hcnt

/-- DEC_END in READY (R164, R193): DONE at a field boundary, STREAM_EXHAUSTED inside a field. -/
theorem execAt_decEnd_ready (hst : s.dec.st = .ready) :
    execAt c .decEnd s = s.setDec
      (if s.dec.cnt = 0 then { s.dec with st := .done }
      else s.dec.raise ⟨.streamExhausted, countInfo s.dec.cnt⟩) := by
  refine congrArg s.setDec ?_
  split_ifs with hcnt
  · exact DecUnit.command_ready_ok hst (decEndBody_whole hcnt)
  · exact DecUnit.command_ready_error hst (decEndBody_partial hcnt)

end ready

/-- Settles O18: each clause is the instruction's effect in READY; the INITs write the whole unit. -/
theorem instructionEffectsAtEveryRadix : Obligations.InstructionEffectsAtEveryRadix := by
  refine ⟨exec_eq_execAt, fun c b s _ => ⟨rfl, rfl, fun hst hlen => ⟨?_, ?_⟩, fun hst => ?_, fun hst _ => ?_⟩⟩
  · exact execAt_encBit_ready c b hst hlen
  · exact execAt_encEnd_ready c hst hlen
  · exact execAt_decBit_ready c b hst
  · exact execAt_decEnd_ready c hst

end Sys2Proof.Machine
end

section
/-! PROOF. Every step keeps the invariants of the two units (spec 10_state.md R22, R23, R30, R31;
60_exceptions.md R196). Both units' moves are gone through once. -/

namespace Sys2Proof.Machine

variable {c : Config} {w : CmdWord}

/-- `step` is the general step at RADIX = 8, read from its answer. -/
theorem eq_stepAt_of_step {s t : State} (h : step s = .next t) : t = stepAt Config.hw s := by
  simpa [step_eq_stepAt] using h.symm

/-- A reserved word's decoding, as the assembler's check. -/
theorem isReserved_of_decode {u : UnitId} {w' : CmdWord} {why : ReservedWhy}
    (h : decode w = .reserved u w' why) : Asm.isReserved w := by
  simp [Asm.isReserved, h]

/-- Outside ERROR no error is recorded (R22, R23). -/
theorem UnitCommon.Coherent.clear {u : UnitCommon} (h : u.Coherent) (hst : u.st ≠ .error) :
    u.err = .none ∧ u.einfo = 0 := by
  have herr : u.err = .none := by_contra fun hne => hst (h.err_iff.mp hne)
  exact ⟨herr, h.einfo_none herr⟩

/-- A unit outside ERROR with no error recorded is coherent. -/
theorem UnitCommon.Coherent.of_clear {u : UnitCommon} (hst : u.st ≠ .error) (herr : u.err = .none)
    (hinfo : u.einfo = 0) : u.Coherent :=
  ⟨⟨fun hne => absurd herr hne, fun herror => absurd herror hst⟩, fun _ => hinfo⟩

/-- Error entry with a code other than NONE is coherent (R195). -/
theorem UnitCommon.Coherent.raise (u : UnitCommon) {e : Raised} (hcode : e.code ≠ .none) :
    (u.raise e).Coherent :=
  ⟨⟨fun _ => rfl, fun _ => hcode⟩, fun hnone => absurd hnone hcode⟩

/-! ### ENC -/

/-- With no error recorded the invariant is about the data alone. -/
theorem EncUnit.Inv.of_clear {u : EncUnit} (hst : u.st ≠ .error) (herr : u.err = .none ∧ u.einfo = 0)
    (hlen : u.len ≤ c.max) (hfresh : u.len = 0 → u.cur = false ∧ u.out = [])
    (hfields : ∀ f ∈ u.out, f ≤ c.max) : u.Inv c := by
  obtain ⟨hnone, hinfo⟩ := herr
  exact
    { coherent := .of_clear hst hnone hinfo
      len_le := hlen
      fresh := hfresh
      fields_le := hfields
      own_errors := by simp [hnone]
      illegal_info := by simp [hnone]
      sequence_info := by simp [hnone] }

/-- INIT and reset leave a unit that meets the invariant (R130, R220). -/
theorem EncUnit.Inv.initial (c : Config) : EncUnit.initial.Inv c :=
  .of_clear nofun ⟨rfl, rfl⟩ (Nat.zero_le _) (fun _ => ⟨rfl, rfl⟩) nofun

/-- ILLEGAL_CMD keeps the invariant (R191). -/
theorem EncUnit.Inv.raise_illegal {u : EncUnit} (h : u.Inv c) (hres : Asm.isReserved w)
    (hunit : cmdUnit w = .enc) : (u.raise ⟨.illegalCmd, wordInfo w⟩).Inv c where
  coherent := .raise _ nofun
  len_le := h.len_le
  fresh := h.fresh
  fields_le := h.fields_le
  own_errors := ⟨nofun, nofun⟩
  illegal_info _ := ⟨w, hres, hunit, rfl⟩
  sequence_info := nofun

/-- SEQUENCE keeps the invariant (R192). -/
theorem EncUnit.Inv.raise_sequence {u : EncUnit} (h : u.Inv c)
    (hword : (∃ b, w = encode (.encBit b)) ∨ w = encode .encEnd) :
    (u.raise ⟨.sequence, wordInfo w⟩).Inv c where
  coherent := .raise _ nofun
  len_le := h.len_le
  fresh := h.fresh
  fields_le := h.fields_le
  own_errors := ⟨nofun, nofun⟩
  illegal_info := nofun
  sequence_info _ := by
    show wordInfo w = 0x02 ∨ wordInfo w = 0x03 ∨ wordInfo w = 0x04
    obtain ⟨b, rfl⟩ | rfl := hword
    · cases b <;> decide
    · decide

/-- ENC_BIT leaves status and error as they are (R133). -/
theorem encBitBody_status {b : Bit} {u u' : EncUnit} (h : encBitBody c b u = .ok u') :
    u'.st = u.st ∧ u'.err = u.err ∧ u'.einfo = u.einfo := by
  obtain ⟨-, -, rfl⟩ | ⟨-, -, rfl⟩ | ⟨-, -, rfl⟩ := encBitBody_ok h <;> exact ⟨rfl, rfl, rfl⟩

/-- ENC_BIT in READY keeps the invariant (R133). -/
theorem EncUnit.Inv.bit {b : Bit} {u u' : EncUnit} (hc : c.Legal) (h : u.Inv c) (hst : u.st = .ready)
    (hbody : encBitBody c b u = .ok u') : u'.Inv c := by
  obtain ⟨hst', herr', hinfo'⟩ := encBitBody_status hbody
  have hok : u'.st ≠ .error := by simp [hst', hst]
  have hclear : u'.err = .none ∧ u'.einfo = 0 := by
    rw [herr', hinfo']; exact h.coherent.clear (by simp [hst])
  have hmax := c.max_pos hc
  have hlen := h.len_le
  obtain ⟨-, hne, rfl⟩ | ⟨-, -, rfl⟩ | ⟨-, -, rfl⟩ := encBitBody_ok hbody
  · exact .of_clear hok hclear (show u.len + 1 ≤ c.max by omega) nofun h.fields_le
  · refine .of_clear hok hclear hmax nofun fun f hf => ?_
    obtain hf | hf | hf : f ∈ u.out ∨ f = c.max ∨ f = 0 := by simpa using hf
    · exact h.fields_le f hf
    · exact hf.le
    · omega
  · refine .of_clear hok hclear hmax nofun fun f hf => ?_
    obtain hf | rfl : f ∈ u.out ∨ f = u.len := by simpa using hf
    · exact h.fields_le f hf
    · exact hlen

/-- ENC_END in READY keeps the invariant (R134). -/
theorem EncUnit.Inv.fin {u u' : EncUnit} (h : u.Inv c) (hst : u.st = .ready)
    (hbody : encEndBody c u = .ok u') : u'.Inv c := by
  obtain ⟨hlen, rfl⟩ := encEndBody_ok hbody
  refine .of_clear nofun (h.coherent.clear (by simp [hst])) hlen (fun h0 => ?_) fun f hf => ?_
  · obtain ⟨hcur, hout⟩ := h.fresh h0
    exact ⟨hcur, by simp [hout, show u.len = 0 from h0]⟩
  · obtain hf | ⟨-, rfl⟩ : f ∈ u.out ∨ (u.len ≠ 0 ∧ f = u.len) := by
      by_cases h0 : u.len = 0 <;> simpa [h0] using hf
    · exact h.fields_le f hf
    · exact hlen

/-- Every command word keeps the ENC invariant. -/
theorem EncMove.inv {u u' : EncUnit} (hc : c.Legal) (hm : EncMove c w u u') (h : u.Inv c) : u'.Inv c := by
  cases hm with
  | other => exact h
  | init => exact .initial c
  | ignored => exact h
  | illegal hunit hword => exact h.raise_illegal (isReserved_of_decode hword) hunit
  | sequence hword => exact h.raise_sequence hword
  | bit _ hst hbody => exact h.bit hc hst hbody
  | fin _ hst hbody => exact h.fin hst hbody
  | overflow _ _ hlen => exact absurd h.len_le (by omega)

/-! ### DEC -/

/-- With no error recorded the invariant is about the data alone. -/
theorem DecUnit.Inv.of_clear {u : DecUnit} (hst : u.st ≠ .error) (herr : u.err = .none ∧ u.einfo = 0)
    (hcnt : u.cnt < c.radix) (hacc : u.acc < 2 ^ u.cnt)
    (hdone : u.st = .done → u.cnt = 0 ∧ u.acc = 0) : u.Inv c := by
  obtain ⟨hnone, hinfo⟩ := herr
  exact
    { coherent := .of_clear hst hnone hinfo
      cnt_lt := hcnt
      acc_lt := hacc
      done_whole := hdone
      own_errors := by simp [hnone]
      illegal_info := by simp [hnone]
      sequence_info := by simp [hnone]
      exhausted_info := by simp [hnone] }

/-- INIT and reset leave a unit that meets the invariant (R160, R220). -/
theorem DecUnit.Inv.initial (hc : c.Legal) : DecUnit.initial.Inv c :=
  .of_clear nofun ⟨rfl, rfl⟩ hc.1 Nat.one_pos nofun

/-- ILLEGAL_CMD keeps the invariant (R191). -/
theorem DecUnit.Inv.raise_illegal {u : DecUnit} (h : u.Inv c) (hres : Asm.isReserved w)
    (hunit : cmdUnit w = .dec) : (u.raise ⟨.illegalCmd, wordInfo w⟩).Inv c where
  coherent := .raise _ nofun
  cnt_lt := h.cnt_lt
  acc_lt := h.acc_lt
  done_whole := nofun
  own_errors := nofun
  illegal_info _ := ⟨w, hres, hunit, rfl⟩
  sequence_info := nofun
  exhausted_info := nofun

/-- SEQUENCE keeps the invariant (R192). -/
theorem DecUnit.Inv.raise_sequence {u : DecUnit} (h : u.Inv c)
    (hword : (∃ b, w = encode (.decBit b)) ∨ w = encode .decEnd) :
    (u.raise ⟨.sequence, wordInfo w⟩).Inv c where
  coherent := .raise _ nofun
  cnt_lt := h.cnt_lt
  acc_lt := h.acc_lt
  done_whole := nofun
  own_errors := nofun
  illegal_info := nofun
  sequence_info _ := by
    show wordInfo w = 0x0A ∨ wordInfo w = 0x0B ∨ wordInfo w = 0x0C
    obtain ⟨b, rfl⟩ | rfl := hword
    · cases b <;> decide
    · decide
  exhausted_info := nofun

/-- STREAM_EXHAUSTED keeps the invariant (R193). -/
theorem DecUnit.Inv.raise_exhausted {u : DecUnit} (h : u.Inv c) (hcnt : u.cnt ≠ 0) :
    (u.raise ⟨.streamExhausted, countInfo u.cnt⟩).Inv c where
  coherent := .raise _ nofun
  cnt_lt := h.cnt_lt
  acc_lt := h.acc_lt
  done_whole := nofun
  own_errors := nofun
  illegal_info := nofun
  sequence_info := nofun
  exhausted_info _ := ⟨hcnt, rfl⟩

/-- A bit shifted in makes a value of one bit more (R26, R163). -/
theorem shiftIn_lt {acc n : Nat} (b : Bit) (h : acc < 2 ^ n) : shiftIn acc b < 2 ^ (n + 1) := by
  have hb : b.toNat ≤ 1 := Bool.toNat_le b
  rw [shiftIn, Nat.pow_succ]
  omega

/-- DEC_BIT leaves status and error as they are (R163). -/
theorem decBitBody_status {b : Bit} {u u' : DecUnit} (h : decBitBody c b u = .ok u') :
    u'.st = u.st ∧ u'.err = u.err ∧ u'.einfo = u.einfo := by
  obtain ⟨-, rfl⟩ | ⟨-, rfl⟩ := decBitBody_ok h <;> exact ⟨rfl, rfl, rfl⟩

/-- DEC_BIT in READY keeps the invariant (R163). -/
theorem DecUnit.Inv.bit {b : Bit} {u u' : DecUnit} (hc : c.Legal) (h : u.Inv c) (hst : u.st = .ready)
    (hbody : decBitBody c b u = .ok u') : u'.Inv c := by
  obtain ⟨hst', herr', hinfo'⟩ := decBitBody_status hbody
  have hok : u'.st ≠ .error := by simp [hst', hst]
  have hopen : u'.st ≠ .done := by simp [hst', hst]
  have hclear : u'.err = .none ∧ u'.einfo = 0 := by
    rw [herr', hinfo']; exact h.coherent.clear (by simp [hst])
  have hcnt := h.cnt_lt
  obtain ⟨-, rfl⟩ | ⟨hne, rfl⟩ := decBitBody_ok hbody
  · exact .of_clear hok hclear hc.1 Nat.one_pos fun hd => absurd hd hopen
  · exact .of_clear hok hclear (show u.cnt + 1 < c.radix by omega) (shiftIn_lt b h.acc_lt)
      fun hd => absurd hd hopen

/-- DEC_END at a field boundary keeps the invariant (R164). -/
theorem DecUnit.Inv.fin {u : DecUnit} (h : u.Inv c) (hst : u.st = .ready) (hcnt : u.cnt = 0) :
    { u with st := .done : DecUnit }.Inv c := by
  have hacc : u.acc = 0 := by simpa [hcnt] using h.acc_lt
  exact .of_clear nofun (h.coherent.clear (by simp [hst])) h.cnt_lt h.acc_lt fun _ => ⟨hcnt, hacc⟩

/-- Every command word keeps the DEC invariant. -/
theorem DecMove.inv {u u' : DecUnit} (hc : c.Legal) (hm : DecMove c w u u') (h : u.Inv c) : u'.Inv c := by
  cases hm with
  | other => exact h
  | init => exact .initial hc
  | ignored => exact h
  | illegal hunit hword => exact h.raise_illegal (isReserved_of_decode hword) hunit
  | sequence hword => exact h.raise_sequence hword
  | bit _ hst hbody => exact h.bit hc hst hbody
  | fin _ hst hcnt => exact h.fin hst hcnt
  | exhausted _ _ hcnt => exact h.raise_exhausted hcnt

/-- One step of the general machine keeps the invariants. -/
theorem State.Inv.stepAt {s : State} (hc : c.Legal) (h : s.Inv c) : (stepAt c s).Inv c := by
  obtain ⟨henc, hdec, -⟩ | ⟨-, henc, hdec⟩ | ⟨w, -, henc, hdec⟩ := stepAt_units c s
  · exact ⟨henc ▸ h.enc, hdec ▸ h.dec⟩
  · exact ⟨henc ▸ .initial c, hdec ▸ .initial hc⟩
  · exact ⟨henc.inv hc h.enc, hdec.inv hc h.dec⟩

/-- Settles O32: each unit's moves keep its invariant, and `step` is the general step at RADIX = 8. -/
theorem stepKeepsUnitInvariants : Obligations.StepKeepsUnitInvariants := by
  refine ⟨fun c s hc h => h.stepAt hc, fun s t h hstep => ?_⟩
  rw [eq_stepAt_of_step hstep]
  exact h.stepAt Config.hw_legal

end Sys2Proof.Machine
end

section
/-! PROOF. What one more input bit adds to the encoding, and one more encoded bit to the whole fields
(spec 40_framing.md R101, R102, R104, R106; 10_state.md R31). -/

namespace Sys2Proof

namespace Framing

variable {c : Config}

/-- Every run has a bit (R101). -/
theorem runs_pos {B : List Bit} : ∀ r ∈ runs B, 1 ≤ r.2 := by
  induction B using List.reverseRecOn with
  | nil => simp
  | append_singleton B b ih =>
    obtain ⟨-, h⟩ | ⟨-, rs, v, n, h, -, hs⟩ := runs_snoc B b
    · simp [h]
    · have hrs : ∀ r ∈ rs, 1 ≤ r.2 := fun r hr => ih r (by simp [h, hr])
      have hn : 1 ≤ n := ih (v, n) (by simp [h])
      rw [hs]
      intro r hr
      split_ifs at hr
      · obtain hr | rfl : r ∈ rs ∨ r = (v, n + 1) := by simpa using hr
        · exact hrs r hr
        · exact Nat.le_add_left 1 n
      · obtain hr | rfl | rfl : r ∈ rs ∨ r = (v, n) ∨ r = (b, 1) := by simpa using hr
        · exact hrs r hr
        · exact hn
        · exact le_rfl

/-- The fields of a run of `k` times MAX and `r` more bits, `r` in 1..MAX (R102). -/
theorem split_mul_add {r : Nat} (k : Nat) (pos : 1 ≤ r) (le : r ≤ c.max) :
    split c (k * c.max + r) = (List.replicate k [c.max, 0]).flatten ++ [r] := by
  have hk : (k * c.max + r - 1) / c.max = k := by
    rw [Nat.add_sub_assoc pos, Nat.mul_comm, Nat.mul_add_div (by omega), Nat.div_eq_of_lt (by omega),
      Nat.add_zero]
  simp [split, hk]

/-- A run's length as a number of overflow pairs and a last field in 1..MAX (R102). -/
theorem exists_eq_mul_max_add (hc : c.Legal) {n : Nat} (hn : 1 ≤ n) :
    ∃ k r, 1 ≤ r ∧ r ≤ c.max ∧ n = k * c.max + r := by
  have hmax := c.max_pos hc
  have hdiv := Nat.div_add_mod' (n - 1) c.max
  have hmod := Nat.mod_lt (n - 1) hmax
  exact ⟨(n - 1) / c.max, (n - 1) % c.max + 1, by omega, by omega, by omega⟩

/-- One more bit in a run: the last field grows, or at MAX an overflow pair is completed (R102). -/
theorem split_succ (hc : c.Legal) {n : Nat} (hn : 1 ≤ n) :
    ∃ G l, 1 ≤ l ∧ split c n = G ++ [l] ∧
      split c (n + 1) = G ++ if l = c.max then [c.max, 0, 1] else [l + 1] := by
  obtain ⟨k, r, hpos, hle, rfl⟩ := exists_eq_mul_max_add hc hn
  refine ⟨_, r, hpos, split_mul_add k hpos hle, ?_⟩
  split_ifs with hr
  · have hsucc : k * c.max + r + 1 = (k + 1) * c.max + 1 := by rw [hr, Nat.succ_mul]
    rw [hsucc, split_mul_add (k + 1) le_rfl (c.max_pos hc)]
    simp [List.replicate_succ']
  · exact split_mul_add (c := c) (r := r + 1) k (by omega) (by omega)

/-- A run of one bit is one field (R105). -/
theorem split_one (hc : c.Legal) : split c 1 = [1] := by
  simpa using split_mul_add (c := c) 0 le_rfl (c.max_pos hc)

/-- The encoding of one bit (R103, R104). -/
theorem encode_singleton (hc : c.Legal) (b : Bit) : encode c [b] = lead [b] ++ [1] := by
  simp [encode, runs, split_one hc]

/-- What one more bit does to the encoding of a non-empty stream: its last field `l` is the field of the run
the bit goes on with, or the bit begins a new run (R104). -/
theorem encode_snoc (hc : c.Legal) {B : List Bit} (hB : B ≠ []) (b : Bit) :
    ∃ G l, 1 ≤ l ∧ encode c B = G ++ [l] ∧
      encode c (B ++ [b]) = G ++
        if b = B.getLastD false then if l = c.max then [c.max, 0, 1] else [l + 1] else [l, 1] := by
  obtain ⟨rfl, -⟩ | ⟨-, rs, v, n, hruns, hlast, hsnoc⟩ := runs_snoc B b
  · exact absurd rfl hB
  have hn : 1 ≤ n := runs_pos (B := B) (v, n) (by simp [hruns])
  obtain ⟨G, l, hl, hsplit, hsucc⟩ := split_succ hc hn
  refine ⟨lead B ++ (rs.map fun r => split c r.2).flatten ++ G, l, hl, ?_, ?_⟩
  · simp [encode_eq, hruns, hsplit]
  · rw [encode_eq, lead_snoc hB, hsnoc, hlast]
    split_ifs with hb hl
    · simp [hsucc, hl]
    · simp [hsucc, hl]
    · simp [hsplit, split_one hc]

/-- Only the empty stream has no field (R104). -/
theorem encode_ne_nil (hc : c.Legal) {B : List Bit} (hB : B ≠ []) : encode c B ≠ [] := by
  obtain ⟨G, l, -, h, -⟩ := encode_snoc hc hB false
  simp [h]

/-- One more field at the end emits copies of the current bit after the fields before it (R106). -/
theorem decodeFrom_snoc (b : Bit) (F : List Nat) (f : Nat) :
    decodeFrom b (F ++ [f]) = decodeFrom b F ++ List.replicate f (b ^^ parity F.length) := by
  induction F generalizing b with
  | nil => simp
  | cons g F ih => simp [ih]

/-- `decodeFrom_snoc` for the bit stream of a field stream, which begins with 0 (R106). -/
theorem decode_snoc (F : List Nat) (f : Nat) :
    decode (F ++ [f]) = decode F ++ List.replicate f (parity F.length) := by
  simp [decode, decodeFrom_snoc]

end Framing

namespace Stream

variable {c : Config} {S : List Bit}

@[simp] theorem wholeFields_length (c : Config) (S : List Bit) :
    (wholeFields c S).length = S.length / c.radix := by
  simp [wholeFields]

/-- A field that a stream holds whole stays the same when bits follow (R31). -/
theorem field_append {k : Nat} (T : List Bit) (h : (k + 1) * c.radix ≤ S.length) :
    ((S ++ T).drop (k * c.radix)).take c.radix = (S.drop (k * c.radix)).take c.radix := by
  rw [Nat.succ_mul] at h
  rw [List.drop_append_of_le_length (by omega),
    List.take_append_of_le_length (by rw [List.length_drop]; omega)]

/-- Bits that complete no field do not change the whole fields (R31). -/
theorem wholeFields_append_of_div_eq (T : List Bit)
    (h : (S ++ T).length / c.radix = S.length / c.radix) : wholeFields c (S ++ T) = wholeFields c S := by
  unfold wholeFields
  rw [h]
  refine List.map_congr_left fun k hk => congrArg valueOf (field_append T ?_)
  exact (Nat.mul_le_mul_right _ (List.mem_range.mp hk)).trans (Nat.div_mul_le_self _ _)

/-- One field after a stream of whole fields (R31, R51). -/
theorem wholeFields_append_field {A X : List Bit} {n : Nat} (hr : 1 ≤ c.radix)
    (hA : A.length = n * c.radix) (hX : X.length = c.radix) :
    wholeFields c (A ++ X) = wholeFields c A ++ [valueOf X] := by
  have hAX : (A ++ X).length / c.radix = n + 1 := by
    rw [List.length_append, hA, hX, ← Nat.succ_mul, Nat.mul_div_cancel _ hr]
  have hn : A.length / c.radix = n := by rw [hA, Nat.mul_div_cancel _ hr]
  have hlast : ((A ++ X).drop (n * c.radix)).take c.radix = X := by
    rw [← hA, List.drop_left, ← hX, List.take_length]
  unfold wholeFields
  rw [hAX, hn, List.range_succ, List.map_append, List.map_singleton, hlast]
  congr 1
  refine List.map_congr_left fun k hk => congrArg valueOf (field_append X ?_)
  rw [hA]
  exact Nat.mul_le_mul_right _ (List.mem_range.mp hk)

/-- The whole fields of a stream are those of its part of whole fields (R31). -/
theorem wholeFields_take_whole (hr : 1 ≤ c.radix) (S : List Bit) :
    wholeFields c (S.take (S.length / c.radix * c.radix)) = wholeFields c S := by
  have hle := Nat.div_mul_le_self S.length c.radix
  conv_rhs => rw [← List.take_append_drop (S.length / c.radix * c.radix) S]
  refine (wholeFields_append_of_div_eq _ ?_).symm
  rw [List.take_append_drop, List.length_take, Nat.min_eq_left hle, Nat.mul_div_cancel _ hr]

/-- A bit that leaves the last field incomplete adds no whole field (R31). -/
theorem wholeFields_snoc_partial (b : Bit) (h : (S.length + 1) / c.radix = S.length / c.radix) :
    wholeFields c (S ++ [b]) = wholeFields c S :=
  wholeFields_append_of_div_eq [b] (by rw [List.length_append, List.length_singleton, h])

/-- A bit that completes the last field adds it to the whole fields (R31). -/
theorem wholeFields_snoc_complete (b : Bit) (h : S.length % c.radix + 1 = c.radix) :
    wholeFields c (S ++ [b]) =
      wholeFields c S ++ [valueOf (S.drop (S.length - S.length % c.radix) ++ [b])] := by
  have hr : 1 ≤ c.radix := by omega
  have hdiv := Nat.div_add_mod' S.length c.radix
  have hwhole : S.length - S.length % c.radix = S.length / c.radix * c.radix := by omega
  have hA : (S.take (S.length / c.radix * c.radix)).length = S.length / c.radix * c.radix := by
    rw [List.length_take]; omega
  rw [hwhole, ← wholeFields_take_whole hr S, ← wholeFields_append_field hr hA, ← List.append_assoc,
    List.take_append_drop]
  rw [List.length_append, List.length_drop, List.length_singleton]
  omega

end Stream

end Sys2Proof
end

section
/-! PROOF. The units' fields are those the rules give for their input (spec 10_state.md R30, R31): at reset,
after every step, and after INIT and any input. -/

namespace Sys2Proof.Machine

variable {c : Config} {w : CmdWord} {b : Bit}

/-- The word of an instruction executes it (R73, R75, R76). -/
theorem commandAt_encode (c : Config) (i : Instr) (s : State) :
    commandAt c (encode i) s = execAt c i s := by
  have hd : decode (encode i) = .instr i := by
    cases i with
    | encInit => exact Laws.EncodeDecode.encInit.2
    | encBit b => exact (Laws.EncodeDecode.encBit b).2
    | encEnd => exact Laws.EncodeDecode.encEnd.2
    | decInit => exact Laws.EncodeDecode.decInit.2
    | decBit b => exact (Laws.EncodeDecode.decBit b).2
    | decEnd => exact Laws.EncodeDecode.decEnd.2
  rw [commandAt, hd]

/-- With a command word next, a step is that command. -/
theorem stepAt_of_nextAction_command (c : Config) {s : State} (h : s.nextAction = some (.command w)) :
    ∃ rest, stepAt c s = commandAt c w (s.setPending rest) := by
  obtain ⟨rest, hp⟩ := List.head?_eq_some_iff.mp h
  exact ⟨rest, stepAt_cons c hp⟩

/-- With reset next, a step is reset. -/
theorem stepAt_of_nextAction_reset (c : Config) {s : State} (h : s.nextAction = some .reset) :
    ∃ rest, stepAt c s = (s.setPending rest).assertReset := by
  obtain ⟨rest, hp⟩ := List.head?_eq_some_iff.mp h
  exact ⟨rest, stepAt_cons c hp⟩

/-! ### ENC -/

/-- ENC is READY and has counted the input `B` (R30 items 1 to 4). -/
structure EncUnit.Counting (c : Config) (B : List Bit) (u : EncUnit) : Prop where
  st : u.st = .ready
  inv : u.Inv c
  tracks : u.Tracks c B

theorem EncUnit.Counting.initial (c : Config) : EncUnit.initial.Counting c [] :=
  ⟨rfl, .initial c, rfl, rfl⟩

/-- With no input given ENC holds no run and no field. -/
theorem EncUnit.Tracks.of_nil {u : EncUnit} (h : u.Inv c) (ht : u.Tracks c []) :
    u.len = 0 ∧ u.cur = false ∧ u.out = [] := by
  have hlen : u.len = 0 := by
    have hheld := (List.append_eq_nil_iff.mp ht.stream).2
    by_contra hne
    simp [EncUnit.held, hne] at hheld
  exact ⟨hlen, h.fresh hlen⟩

/-- With some input given the run being counted has a field (R30 items 1 and 4). -/
theorem EncUnit.Tracks.out_append_len {u : EncUnit} {B : List Bit} (hc : c.Legal) (h : u.Inv c)
    (ht : u.Tracks c B) (hB : B ≠ []) : u.out ++ [u.len] = Framing.encode c B := by
  have hstream := ht.stream
  by_cases hlen : u.len = 0
  · obtain ⟨-, hout⟩ := h.fresh hlen
    simp only [EncUnit.held, hlen, if_true, hout, List.append_nil] at hstream
    exact absurd hstream.symm (Framing.encode_ne_nil hc hB)
  · rwa [EncUnit.held, if_neg hlen] at hstream

/-- ENC_BIT counts its bit (R133). -/
theorem EncUnit.Tracks.bit {u u' : EncUnit} {B : List Bit} (hc : c.Legal) (h : u.Inv c)
    (ht : u.Tracks c B) (hbody : encBitBody c b u = .ok u') : u'.Tracks c (B ++ [b]) := by
  have hcur := ht.cur
  by_cases hB : B = []
  · subst hB
    obtain ⟨hlen, hfalse, hout⟩ := ht.of_nil h
    have hmax := c.max_pos hc
    obtain ⟨rfl, -, rfl⟩ | ⟨-, hpair, -⟩ | ⟨hb, -, rfl⟩ := encBitBody_ok hbody
    · constructor <;> simp [EncUnit.held, Framing.encode_singleton hc, hlen, hfalse, hout]
    · omega
    · obtain rfl : b = true := by simpa [hfalse] using hb
      constructor <;> simp [EncUnit.held, Framing.encode_singleton hc, hlen, hout]
  · obtain ⟨G, l, -, henc, hsnoc⟩ := Framing.encode_snoc hc hB b
    have hlast := ht.out_append_len hc h hB
    obtain ⟨rfl, rfl⟩ : u.out = G ∧ u.len = l := by simpa [henc] using hlast
    rw [← hcur] at hsnoc
    obtain ⟨rfl, hne, rfl⟩ | ⟨rfl, hpair, rfl⟩ | ⟨hb, -, rfl⟩ := encBitBody_ok hbody
    · constructor <;> simp [EncUnit.held, hsnoc, hne]
    · constructor <;> simp [EncUnit.held, hsnoc, hpair]
    · constructor <;> simp [EncUnit.held, hsnoc, hb]

/-- In READY ENC_BIT's effect is its body's, which completes for a held length up to MAX (R76, R133). -/
theorem commandAt_encBit_body {s : State} (hst : s.enc.st = .ready) (hlen : s.enc.len ≤ c.max) :
    encBitBody c b s.enc = .ok (commandAt c (encode (.encBit b)) s).enc := by
  rw [commandAt_encode]
  cases hbody : encBitBody c b s.enc with
  | ok u' => exact congrArg Except.ok (EncUnit.command_ready_ok hst hbody).symm
  | error e =>
    obtain ⟨hgt, -⟩ := encBitBody_error hbody
    omega

/-- ENC_BIT on a unit that has counted `B` (R133). -/
theorem EncUnit.Counting.bit {s : State} {B : List Bit} (hc : c.Legal) (h : s.enc.Counting c B) (b : Bit) :
    (commandAt c (encode (.encBit b)) s).enc.Counting c (B ++ [b]) := by
  have hbody := commandAt_encBit_body (b := b) h.st h.inv.len_le
  exact ⟨(encBitBody_status hbody).1.trans h.st, h.inv.bit hc h.st hbody, h.tracks.bit hc h.inv hbody⟩

/-- Any number of ENC_BITs (R30 item 4). -/
theorem EncUnit.Counting.bits {s : State} {A : List Bit} (hc : c.Legal) (h : s.enc.Counting c A)
    (B : List Bit) : (commandsAt c (Asm.encBitWords B) s).enc.Counting c (A ++ B) := by
  induction B generalizing s A with
  | nil => simpa [Asm.encBitWords] using h
  | cons b B ih => simpa [Asm.encBitWords] using ih (h.bit hc b)

/-- An error leaves the fields that count the input (R195). -/
theorem EncUnit.Follows.raise {u : EncUnit} {B : List Bit} (h : u.Follows c B) (e : Raised) :
    (u.raise e).Follows c B := by
  show (u.raise e).Tracks c B ∨ u.out = Framing.encode c B
  unfold EncUnit.Follows at h
  cases hst : u.st with
  | ready => rw [hst] at h; exact .inl ⟨h.stream, h.cur⟩
  | done => rw [hst] at h; exact .inr h
  | error => rw [hst] at h; exact h.imp (fun ht => ⟨ht.stream, ht.cur⟩) id

theorem EncUnit.follows_of_ready {u : EncUnit} {B : List Bit} (hst : u.st = .ready) :
    u.Follows c B ↔ u.Tracks c B := by
  simp [EncUnit.Follows, hst]

/-- Every command word but INIT and a BIT that executes leaves ENC following the same input. -/
theorem EncMove.follows {u u' : EncUnit} {B : List Bit} (hm : EncMove c w u u') (h : u.Follows c B)
    (hbit : ∀ b, w = encode (.encBit b) → u.st ≠ .ready) (hinit : w ≠ encode .encInit) :
    u'.Follows c B := by
  cases hm with
  | other => exact h
  | init hword => exact absurd hword hinit
  | ignored => exact h
  | illegal => exact h.raise _
  | sequence => exact h.raise _
  | bit hword hst => exact absurd hst (hbit _ hword)
  | fin _ hst hbody =>
    obtain ⟨-, rfl⟩ := encEndBody_ok hbody
    exact ((EncUnit.follows_of_ready hst).mp h).stream
  | overflow => exact h.raise _

/-- INIT and reset leave ENC with no input (R130, R220). -/
theorem stepAt_enc_initial (c : Config) {s : State}
    (h : s.nextAction = some (.command (encode .encInit)) ∨ s.nextAction = some .reset) :
    (stepAt c s).enc = EncUnit.initial := by
  obtain h | h := h
  · obtain ⟨rest, hstep⟩ := stepAt_of_nextAction_command c h
    rw [hstep, commandAt_encode]; rfl
  · obtain ⟨rest, hstep⟩ := stepAt_of_nextAction_reset c h
    rw [hstep]; rfl

/-- Every other step that executes no ENC_BIT leaves ENC following the same input. -/
theorem stepAt_enc_follows {s : State} {B : List Bit} (hf : s.enc.Follows c B)
    (hbit : ∀ b, s.nextAction = some (.command (encode (.encBit b))) → s.enc.st ≠ .ready)
    (hinit : s.nextAction ≠ some (.command (encode .encInit))) (hreset : s.nextAction ≠ some .reset) :
    (stepAt c s).enc.Follows c B := by
  obtain ⟨henc, -⟩ | ⟨hr, -⟩ | ⟨w, hw, hm, -⟩ := stepAt_units c s
  · rwa [henc]
  · exact absurd hr hreset
  · refine hm.follows hf (fun b hb => hbit b ?_) fun hi => hinit ?_
    · rw [← hb]; exact hw
    · rw [← hi]; exact hw

/-! ### DEC -/

/-- DEC is READY and has received the encoded bits `S` (R31 items 1 and 2). -/
structure DecUnit.Receiving (c : Config) (S : List Bit) (u : DecUnit) : Prop where
  st : u.st = .ready
  tracks : u.Tracks c S

theorem DecUnit.Tracks.initial (c : Config) : DecUnit.initial.Tracks c [] := by
  constructor <;> simp [DecUnit.initial, UnitCommon.initial, Stream.wholeFields, Framing.decode]

/-- DEC_BIT receives its bit (R163). -/
theorem DecUnit.Tracks.bit {u u' : DecUnit} {S : List Bit} (hc : c.Legal) (ht : u.Tracks c S)
    (hbody : decBitBody c b u = .ok u') : u'.Tracks c (S ++ [b]) := by
  obtain ⟨hcnt, hacc, hcur, hout⟩ := ht
  have hdiv := Nat.div_add_mod S.length c.radix
  have hmod := Nat.mod_lt S.length hc.1
  obtain ⟨hfull, rfl⟩ | ⟨hpart, rfl⟩ := decBitBody_ok hbody
  · have hlen : (S.length + 1) / c.radix = S.length / c.radix + 1 ∧ (S.length + 1) % c.radix = 0 :=
      (Nat.div_mod_unique hc.1).mpr ⟨by rw [Nat.mul_succ]; omega, hc.1⟩
    have hwhole := Stream.wholeFields_snoc_complete b (hcnt ▸ hfull)
    constructor
    · simp [hlen]
    · simp
    · simp [hlen, hcur]
    · simp [hwhole, Framing.decode_snoc, hout, hcur, hacc, hcnt, shiftIn]
  · have hlen : (S.length + 1) / c.radix = S.length / c.radix ∧ (S.length + 1) % c.radix = u.cnt + 1 :=
      (Nat.div_mod_unique hc.1).mpr ⟨by omega, by omega⟩
    have hwhole := Stream.wholeFields_snoc_partial b hlen.1
    have hle : S.length - u.cnt ≤ S.length := Nat.sub_le _ _
    constructor
    · simp [hlen]
    · simp [hacc, shiftIn, List.drop_append_of_le_length hle]
    · simp [hlen, hcur]
    · simp [hwhole, hout]

/-- In READY DEC_BIT's effect is its body's, which always completes (R76, R163). -/
theorem commandAt_decBit_body {s : State} (hst : s.dec.st = .ready) :
    decBitBody c b s.dec = .ok (commandAt c (encode (.decBit b)) s).dec := by
  rw [commandAt_encode, execAt_decBit_ready c b hst]
  by_cases hcnt : s.dec.cnt + 1 = c.radix
  · simp [hcnt, decBitBody_complete hcnt]
  · simp [hcnt, decBitBody_partial hcnt]

/-- DEC_BIT on a unit that has received `S` (R163). -/
theorem DecUnit.Receiving.bit {s : State} {S : List Bit} (hc : c.Legal) (h : s.dec.Receiving c S) (b : Bit) :
    (commandAt c (encode (.decBit b)) s).dec.Receiving c (S ++ [b]) := by
  have hbody := commandAt_decBit_body (c := c) (b := b) h.st
  exact ⟨(decBitBody_status hbody).1.trans h.st, h.tracks.bit hc hbody⟩

/-- Any number of DEC_BITs (R31 item 2). -/
theorem DecUnit.Receiving.bits {s : State} {A : List Bit} (hc : c.Legal) (h : s.dec.Receiving c A)
    (S : List Bit) : (commandsAt c (Asm.decBitWords S) s).dec.Receiving c (A ++ S) := by
  induction S generalizing s A with
  | nil => simpa [Asm.decBitWords] using h
  | cons b S ih => simpa [Asm.decBitWords] using ih (h.bit hc b)

/-- An error leaves the fields that follow the input (R195). -/
theorem DecUnit.Tracks.raise {u : DecUnit} {S : List Bit} (h : u.Tracks c S) (e : Raised) :
    (u.raise e).Tracks c S :=
  ⟨h.cnt, h.acc, h.cur, h.out⟩

/-- Every command word but INIT and a BIT that executes leaves DEC tracking the same input. -/
theorem DecMove.tracks {u u' : DecUnit} {S : List Bit} (hm : DecMove c w u u') (h : u.Tracks c S)
    (hbit : ∀ b, w = encode (.decBit b) → u.st ≠ .ready) (hinit : w ≠ encode .decInit) :
    u'.Tracks c S := by
  cases hm with
  | other => exact h
  | init hword => exact absurd hword hinit
  | ignored => exact h
  | illegal => exact h.raise _
  | sequence => exact h.raise _
  | bit hword hst => exact absurd hst (hbit _ hword)
  | fin => exact ⟨h.cnt, h.acc, h.cur, h.out⟩
  | exhausted => exact h.raise _

/-- INIT and reset leave DEC with no input (R160, R220). -/
theorem stepAt_dec_initial (c : Config) {s : State}
    (h : s.nextAction = some (.command (encode .decInit)) ∨ s.nextAction = some .reset) :
    (stepAt c s).dec = DecUnit.initial := by
  obtain h | h := h
  · obtain ⟨rest, hstep⟩ := stepAt_of_nextAction_command c h
    rw [hstep, commandAt_encode]; rfl
  · obtain ⟨rest, hstep⟩ := stepAt_of_nextAction_reset c h
    rw [hstep]; rfl

/-- Every other step that executes no DEC_BIT leaves DEC tracking the same input. -/
theorem stepAt_dec_tracks {s : State} {S : List Bit} (ht : s.dec.Tracks c S)
    (hbit : ∀ b, s.nextAction = some (.command (encode (.decBit b))) → s.dec.st ≠ .ready)
    (hinit : s.nextAction ≠ some (.command (encode .decInit))) (hreset : s.nextAction ≠ some .reset) :
    (stepAt c s).dec.Tracks c S := by
  obtain ⟨-, hdec, -⟩ | ⟨hr, -⟩ | ⟨w, hw, -, hm⟩ := stepAt_units c s
  · rwa [hdec]
  · exact absurd hr hreset
  · refine hm.tracks ht (fun b hb => hbit b ?_) fun hi => hinit ?_
    · rw [← hb]; exact hw
    · rw [← hi]; exact hw

/-! ### The statements -/

/-- Settles O31: INIT's and reset's unit is the unit of no input. -/
theorem resetMeetsTheInvariants : Obligations.ResetMeetsTheInvariants := fun c hc =>
  ⟨⟨.initial c, .initial hc⟩, (EncUnit.Counting.initial c).tracks, .initial c⟩

/-- Settles O33: a BIT executed extends the input, INIT and reset empty it, any other move keeps it. -/
theorem stepKeepsOutputsTheRulesGive : Obligations.StepKeepsOutputsTheRulesGive := by
  refine ⟨step_eq_stepAt, fun c s B S hc h hf ht => ⟨fun b hb hst => ?_, fun hi => ?_,
    stepAt_enc_follows hf, fun b hb hst => ?_, fun hi => ?_, stepAt_dec_tracks ht⟩⟩
  · obtain ⟨rest, hstep⟩ := stepAt_of_nextAction_command c hb
    have hcounting : (s.setPending rest).enc.Counting c B :=
      ⟨hst, h.enc, (EncUnit.follows_of_ready hst).mp hf⟩
    have hnext := hcounting.bit hc b
    rw [hstep]
    exact ⟨hnext.st, (EncUnit.follows_of_ready hnext.st).mpr hnext.tracks⟩
  · rw [stepAt_enc_initial c hi]
    exact ⟨rfl, (EncUnit.Counting.initial c).tracks⟩
  · obtain ⟨rest, hstep⟩ := stepAt_of_nextAction_command c hb
    have hreceiving : (s.setPending rest).dec.Receiving c S := ⟨hst, ht⟩
    have hnext := hreceiving.bit hc b
    rw [hstep]
    exact ⟨hnext.st, hnext.tracks⟩
  · rw [stepAt_dec_initial c hi]
    exact ⟨rfl, .initial c⟩

/-- Settles O34: ENC counts the input from INIT on, and its held length is the last field. -/
theorem encoderMidStreamOutput : Obligations.EncoderMidStreamOutput := by
  intro c B s hc
  have hinit : (commandAt c (encode .encInit) s).enc.Counting c [] := by
    rw [commandAt_encode]; exact .initial c
  have hcounting : (commandsAt c (encode .encInit :: Asm.encBitWords B) s).enc.Counting c B :=
    hinit.bits hc B
  refine ⟨hcounting.st, hcounting.tracks.stream, fun hB => ?_⟩
  rw [← hcounting.tracks.out_append_len hc hcounting.inv hB, List.dropLast_concat, List.getLast?_concat]
  exact ⟨rfl, rfl⟩

/-- Settles O36: DEC receives the input from INIT on, and the fields it holds whole are a part of it. -/
theorem decoderMidStreamOutput : Obligations.DecoderMidStreamOutput := by
  intro c S s hc
  have hinit : (commandAt c (encode .decInit) s).dec.Receiving c [] := by
    rw [commandAt_encode]; exact ⟨rfl, .initial c⟩
  obtain ⟨hst, hcnt, hacc, hcur, hout⟩ := hinit.bits hc S
  refine ⟨hst, hcnt, hcnt ▸ hacc, hcur, _, ?_, hout⟩
  have hlen : (S.take (S.length / c.radix * c.radix)).length % c.radix = 0 := by
    rw [List.length_take, Nat.min_eq_left (Nat.div_mul_le_self _ _), Nat.mul_mod_left]
  rw [Stream.deser, if_pos hlen, Stream.wholeFields_take_whole hc.1]
  rfl

end Sys2Proof.Machine
end

section
/-! PROOF. Leaving DONE, the frame of an instruction, and the status registers (spec 10_state.md R20, R21,
R32 to R36; 60_exceptions.md R191, R192). -/

namespace Sys2Proof.Machine

variable {c : Config} {w : CmdWord}

/-! ### Leaving DONE -/

/-- An instruction's word names the unit it acts on (R71, R73). -/
theorem cmdUnit_encode (i : Instr) : cmdUnit (encode i) = i.unit := by
  cases i with
  | encBit b | decBit b => cases b <;> decide
  | encInit | encEnd | decInit | decEnd => decide

/-- From DONE a command word leaves ENC, begins a new invocation, or raises SEQUENCE or ILLEGAL_CMD. -/
theorem EncMove.of_done {u u' : EncUnit} (hm : EncMove c w u u') (hst : u.st = .done) :
    u' = u ∨ (w = encode .encInit ∧ u' = encInitUnit) ∨
    (cmdUnit w = .enc ∧ ∃ code, (code = .sequence ∨ code = .illegalCmd) ∧
      u' = u.raise ⟨code, wordInfo w⟩) := by
  cases hm with
  | other => exact .inl rfl
  | init hword => exact .inr (.inl ⟨hword, rfl⟩)
  | ignored => exact .inl rfl
  | illegal hunit => exact .inr (.inr ⟨hunit, _, .inr rfl, rfl⟩)
  | sequence hword =>
    refine .inr (.inr ⟨?_, _, .inl rfl, rfl⟩)
    obtain ⟨b, rfl⟩ | rfl := hword <;> exact cmdUnit_encode _
  | bit _ hready => simp [hst] at hready
  | fin _ hready => simp [hst] at hready
  | overflow _ hready => simp [hst] at hready

/-- From DONE a command word leaves DEC, begins a new invocation, or raises SEQUENCE or ILLEGAL_CMD. -/
theorem DecMove.of_done {u u' : DecUnit} (hm : DecMove c w u u') (hst : u.st = .done) :
    u' = u ∨ (w = encode .decInit ∧ u' = decInitUnit) ∨
    (cmdUnit w = .dec ∧ ∃ code, (code = .sequence ∨ code = .illegalCmd) ∧
      u' = u.raise ⟨code, wordInfo w⟩) := by
  cases hm with
  | other => exact .inl rfl
  | init hword => exact .inr (.inl ⟨hword, rfl⟩)
  | ignored => exact .inl rfl
  | illegal hunit => exact .inr (.inr ⟨hunit, _, .inr rfl, rfl⟩)
  | sequence hword =>
    refine .inr (.inr ⟨?_, _, .inl rfl, rfl⟩)
    obtain ⟨b, rfl⟩ | rfl := hword <;> exact cmdUnit_encode _
  | bit _ hready => simp [hst] at hready
  | fin _ hready => simp [hst] at hready
  | exhausted _ hready => simp [hst] at hready

theorem cmdUnit_eq_enc_iff : cmdUnit w = .enc ↔ w.getLsbD 3 = false := by simp [cmdUnit]

theorem cmdUnit_eq_dec_iff : cmdUnit w = .dec ↔ w.getLsbD 3 = true := by simp [cmdUnit]

/-- Settles O10: of a unit's moves, those that leave DONE are its INIT and the two errors. -/
theorem doneIsLeftOnlyByInitResetOrError : Obligations.DoneIsLeftOnlyByInitResetOrError := by
  intro s t hstep
  obtain rfl := eq_stepAt_of_step hstep
  obtain ⟨henc, hdec, -⟩ | ⟨hr, henc, hdec⟩ | ⟨w, hw, henc, hdec⟩ := stepAt_units Config.hw s
  · exact ⟨fun _ => .inl henc, fun _ => .inl hdec⟩
  · rw [henc, hdec]
    exact ⟨fun _ => .inr (.inl ⟨rfl, .inr hr⟩), fun _ => .inr (.inl ⟨rfl, .inr hr⟩)⟩
  · refine ⟨fun hst => ?_, fun hst => ?_⟩
    · obtain h | ⟨rfl, h⟩ | ⟨hunit, code, hcode, h⟩ := henc.of_done hst
      · exact .inl h
      · rw [h]; exact .inr (.inl ⟨rfl, .inl hw⟩)
      · rw [h]; exact .inr (.inr ⟨rfl, rfl, w, cmdUnit_eq_enc_iff.mp hunit, hw, hcode, rfl⟩)
    · obtain h | ⟨rfl, h⟩ | ⟨hunit, code, hcode, h⟩ := hdec.of_done hst
      · exact .inl h
      · rw [h]; exact .inr (.inl ⟨rfl, .inl hw⟩)
      · rw [h]; exact .inr (.inr ⟨rfl, rfl, w, cmdUnit_eq_dec_iff.mp hunit, hw, hcode, rfl⟩)

/-! ### The frame of an instruction -/

/-- An instruction leaves the unit it does not name (R20, R76). -/
theorem execAt_frame (c : Config) (i : Instr) (s : State) :
    (i.unit = .enc → (execAt c i s).dec = s.dec) ∧ (i.unit = .dec → (execAt c i s).enc = s.enc) := by
  cases i with
  | encInit | encBit | encEnd => exact ⟨fun _ => rfl, nofun⟩
  | decInit | decBit | decEnd => exact ⟨nofun, fun _ => rfl⟩

/-- Settles O19: every arm sets one unit. -/
theorem instructionTouchesOnlyItsUnit : Obligations.InstructionTouchesOnlyItsUnit := by
  intro i s t h
  obtain rfl : execAt Config.hw i s = t := by simpa [exec_eq_execAt] using h
  exact ⟨execAt_port Config.hw i s, execAt_frame Config.hw i s⟩

/-! ### The status registers -/

/-- The fields of a status byte as put together (R33). -/
theorem statusFields (st : BitVec 2) (err : BitVec 3) (cur : Bit) :
    (0b00#2 ++ BitVec.ofBool cur ++ err ++ st).extractLsb' 0 2 = st ∧
    (0b00#2 ++ BitVec.ofBool cur ++ err ++ st).extractLsb' 2 3 = err ∧
    (0b00#2 ++ BitVec.ofBool cur ++ err ++ st).getLsbD 5 = cur ∧
    (0b00#2 ++ BitVec.ofBool cur ++ err ++ st).extractLsb' 6 2 = 0#2 := by
  decide +revert

/-- `ST` = 11 is never read (R33). -/
theorem InvState.code_ne_three (st : InvState) : st.code ≠ 0b11#2 := by cases st <;> decide

/-- `ERR` above 4 is never read (R33). -/
theorem ErrCode.code_le_four (err : ErrCode) : err.code.toNat ≤ 4 := by cases err <;> decide

/-- Settles O24: the four fields of the byte, and the codes of `st` and `err`. -/
theorem statusRegisterLayout : Obligations.StatusRegisterLayout := by
  refine ⟨fun u => ?_, by decide, by decide⟩
  obtain ⟨hst, herr, hcur, hzero⟩ := statusFields u.st.code u.err.code u.cur
  refine ⟨hst.trans ?_, fun h => u.st.code_ne_three (hst.symm.trans h), herr.trans ?_, ?_, hcur, hzero⟩
  · cases u.st <;> rfl
  · cases u.err <;> rfl
  · exact (congrArg BitVec.toNat herr).trans_le u.err.code_le_four

/-- DEC_CNT is the count where it fits 8 bits (R32). -/
theorem countInfo_toNat {n : Nat} (h : n < 256) : (countInfo n).toNat = n := by
  rw [countInfo, BitVec.toNat_ofNat, Nat.mod_eq_of_lt h]

/-- Settles O25: register by register. -/
theorem statusRegisterMap : Obligations.StatusRegisterMap := fun _ =>
  ⟨rfl, rfl, rfl, rfl, rfl, rfl, countInfo_toNat, rfl⟩

/-- The eight register numbers (R32). -/
theorem regNum_cases (a : RegNum) :
    a = 0 ∨ a = 1 ∨ a = 2 ∨ a = 3 ∨ a = 4 ∨ a = 5 ∨ a = 6 ∨ a = 7 := by
  decide +revert

/-- Settles O26: `len` and `acc` fit RADIX bits by the invariants (R26, R27), the other registers are bytes. -/
theorem registerValuesFitTheirWidths : Obligations.RegisterValuesFitTheirWidths := by
  intro c s a _ h
  have hlen : s.enc.len < 2 ^ c.radix := (c.lt_two_pow_iff _).mpr h.enc.len_le
  have hacc : s.dec.acc < 2 ^ c.radix :=
    h.dec.acc_lt.trans_le (Nat.pow_le_pow_right Nat.two_pos h.dec.cnt_lt.le)
  obtain rfl | rfl | rfl | rfl | rfl | rfl | rfl | rfl := regNum_cases a
  · exact s.enc.statusByte.isLt
  · exact hlen
  · exact s.enc.einfo.isLt
  · exact Nat.two_pow_pos 8
  · exact s.dec.statusByte.isLt
  · exact hacc
  · exact (countInfo s.dec.cnt).isLt
  · exact s.dec.einfo.isLt

/-- Settles O27: a read is served by answering; a step that serves no command and no reset keeps both
units. -/
theorem readsHaveNoSideEffect : Obligations.ReadsHaveNoSideEffect := by
  refine ⟨fun s a rest hp => ?_, fun s rest hp => ?_, fun s rest hp => ?_, fun s t hstep hne => ?_⟩
  · rw [step_eq_stepAt, stepAt_cons _ hp]; rfl
  · rw [step_eq_stepAt, stepAt_cons _ hp]; rfl
  · rw [step_eq_stepAt, stepAt_cons _ hp]; rfl
  · obtain rfl := eq_stepAt_of_step hstep
    obtain ⟨henc, hdec, -⟩ | ⟨hr, -⟩ | ⟨w, hw, -⟩ := stepAt_units Config.hw s
    · exact absurd hne (by simp [henc, hdec])
    · exact .inl hr
    · exact .inr ⟨w, hw⟩

end Sys2Proof.Machine
end

section
/-! PROOF. The bit form of a field stream and the byte form of a bit stream (spec 20_memory.md R50 to R55;
70_reset_and_hazards.md R233). -/

namespace Sys2Proof.Stream

variable {c : Config}

/-! ### One field -/

/-- Bit `i` of a field, counted from the most significant (R50). -/
theorem bitsOf_getElem? (v : Nat) {i : Nat} (h : i < c.radix) :
    (bitsOf c v)[i]? = some (v.testBit (c.radix - 1 - i)) := by
  simp [bitsOf, h]

/-- `valueOf_testBit` for the bit that stands at place `i`. -/
theorem valueOf_testBit_of_getElem? {S : List Bit} {i : Nat} {b : Bit} (h : S[i]? = some b) :
    (valueOf S).testBit (S.length - 1 - i) = b := by
  obtain ⟨hi, rfl⟩ := List.getElem?_eq_some_iff.mp h
  rw [valueOf_testBit S i hi, List.getD_eq_getElem _ _ hi]

/-- A field's bits are read back as its value (R51). -/
theorem valueOf_bitsOf {v : Nat} (h : v ≤ c.max) : valueOf (bitsOf c v) = v := by
  have hv : v < 2 ^ c.radix := (c.lt_two_pow_iff v).mpr h
  have hlt : valueOf (bitsOf c v) < 2 ^ c.radix := by simpa using valueOf_lt (bitsOf c v)
  refine Nat.eq_of_testBit_eq fun i => ?_
  by_cases hi : i < c.radix
  · have hj : c.radix - 1 - i < c.radix := by omega
    have hij : c.radix - 1 - (c.radix - 1 - i) = i := by omega
    simpa [hij] using valueOf_testBit_of_getElem? (bitsOf_getElem? v hj)
  · have hle : 2 ^ c.radix ≤ 2 ^ i := Nat.pow_le_pow_right Nat.two_pos (Nat.le_of_not_lt hi)
    rw [Nat.testBit_lt_two_pow (hlt.trans_le hle), Nat.testBit_lt_two_pow (hv.trans_le hle)]

/-- The value of RADIX bits is carried as these bits (R51). -/
theorem bitsOf_valueOf {A : List Bit} (h : A.length = c.radix) : bitsOf c (valueOf A) = A := by
  refine List.ext_getElem (by simp [h]) fun i _ hi => ?_
  simpa [bitsOf, h] using valueOf_testBit_of_getElem? (List.getElem?_eq_getElem hi)

/-! ### The serial form of a field stream -/

@[simp] theorem ser_length (c : Config) (F : List Nat) : (ser c F).length = F.length * c.radix := by
  simp [ser, Function.comp_def]

/-- Bit `i` of field `k` in the serial form (R50). -/
theorem ser_getElem? {F : List Nat} {k i : Nat} (hk : k < F.length) (hi : i < c.radix) :
    (ser c F)[k * c.radix + i]? = some (F[k].testBit (c.radix - 1 - i)) := by
  induction F generalizing k with
  | nil => simp at hk
  | cons f F ih =>
    cases k with
    | zero =>
      rw [ser_cons, Nat.zero_mul, Nat.zero_add, List.getElem?_append_left (by simpa using hi)]
      exact bitsOf_getElem? f hi
    | succ k =>
      have hpos : (k + 1) * c.radix + i = (bitsOf c f).length + (k * c.radix + i) := by
        rw [bitsOf_length, Nat.succ_mul]; omega
      rw [ser_cons, hpos, List.getElem?_append_right (Nat.le_add_right _ _), Nat.add_sub_cancel_left]
      exact ih (by simpa using hk)

/-- A field read from a stream is at most MAX (R51). -/
theorem wholeFields_le {S : List Bit} : ∀ f ∈ wholeFields c S, f ≤ c.max := by
  intro f hf
  obtain ⟨k, -, rfl⟩ := List.mem_map.mp hf
  have hlen : ((S.drop (k * c.radix)).take c.radix).length ≤ c.radix := List.length_take_le _ _
  exact (c.lt_two_pow_iff _).mp ((valueOf_lt _).trans_le (Nat.pow_le_pow_right Nat.two_pos hlen))

/-- The whole fields of a serial form are the fields (R51). -/
theorem wholeFields_ser (hr : 1 ≤ c.radix) {F : List Nat} (hF : ∀ f ∈ F, f ≤ c.max) :
    wholeFields c (ser c F) = F := by
  induction F with
  | nil => simp [wholeFields]
  | cons f F ih =>
    obtain ⟨hf, hF⟩ := List.forall_mem_cons.mp hF
    rw [ser_cons, wholeFields_append hr _ _ (bitsOf_length c f), valueOf_bitsOf hf, ih hF]

/-- A stream of whole fields is the serial form of its fields (R51). -/
theorem ser_wholeFields (hr : 1 ≤ c.radix) {n : Nat} {S : List Bit} (h : S.length = n * c.radix) :
    ser c (wholeFields c S) = S := by
  induction n generalizing S with
  | zero =>
    obtain rfl : S = [] := by simpa using h
    simp [wholeFields]
  | succ n ih =>
    rw [Nat.succ_mul] at h
    have hhead : (S.take c.radix).length = c.radix := by rw [List.length_take]; omega
    have htail : (S.drop c.radix).length = n * c.radix := by rw [List.length_drop]; omega
    conv_lhs => rw [← List.take_append_drop c.radix S]
    rw [wholeFields_append hr _ _ hhead, ser_cons, bitsOf_valueOf hhead, ih htail,
      List.take_append_drop]

/-- Where `deser` is defined, and what it is there (R51). -/
theorem deser_eq_some_iff {S : List Bit} {F : List Nat} :
    deser c S = some F ↔ S.length % c.radix = 0 ∧ wholeFields c S = F := by
  simp [deser]

/-- Settles O55: the serial form puts the fields' bits one field after the other. -/
theorem serialFormIsMostSignificantBitFirst : Obligations.SerialFormIsMostSignificantBitFirst :=
  fun c F => ⟨ser_length c F, fun _ _ hk hi => ser_getElem? hk hi⟩

/-- Settles O56: where it is defined, `deser` reads the whole fields. -/
theorem serAndDeserAreInverse : Obligations.SerAndDeserAreInverse := by
  refine fun c hc => ⟨fun F hF => ?_, fun S F h => ?_, fun S => ⟨fun h => ?_, fun ⟨F, h⟩ => ?_⟩⟩
  · exact deser_eq_some_iff.mpr ⟨by simp, wholeFields_ser hc.1 hF⟩
  · obtain ⟨hlen, rfl⟩ := deser_eq_some_iff.mp h
    exact ⟨ser_wholeFields hc.1 (Nat.div_mul_cancel (Nat.dvd_of_mod_eq_zero hlen)).symm, wholeFields_le⟩
  · exact ⟨_, deser_eq_some_iff.mpr ⟨h, rfl⟩⟩
  · exact (deser_eq_some_iff.mp h).1

/-! ### Bytes -/

@[simp] theorem packBytes_length (draw : Nat) (S : List Bit) :
    (packBytes draw S).length = (S.length + 7) / 8 := by
  simp [packBytes]

/-- Inside the stream the padded bit is the stream's (R53). -/
theorem paddedBit_of_getElem? {draw j : Nat} {S : List Bit} {b : Bit} (h : S[j]? = some b) :
    paddedBit draw S j = b := by
  simp [paddedBit, h]

/-- A bit of a byte put together from eight bits, the first the most significant (R53). -/
theorem byte_getLsbD {bits : List Bit} {i : Nat} {b : Bit} (hlen : bits.length = 8) (h : bits[i]? = some b) :
    (BitVec.ofNat 8 (valueOf bits)).getLsbD (7 - i) = b := by
  have hi : 7 - i < 8 := by omega
  have hbit := valueOf_testBit_of_getElem? h
  rw [hlen] at hbit
  rw [BitVec.getLsbD_ofNat, hbit, decide_eq_true hi, Bool.true_and]

/-- Settles O57: byte `j div 8` is put together from the bits around bit `j`. -/
theorem packingPutsTheFirstBitHighest : Obligations.PackingPutsTheFirstBitHighest := by
  refine fun draw S => ⟨packBytes_length draw S, fun j hj => ?_⟩
  have hk : j / 8 < (S.length + 7) / 8 := by omega
  have hi : j % 8 < 8 := Nat.mod_lt j (by omega)
  have hbyte : (packBytes draw S).getD (j / 8) 0 =
      BitVec.ofNat 8 (valueOf ((List.range 8).map fun i => paddedBit draw S (8 * (j / 8) + i))) := by
    simp [packBytes, hk]
  have hpad : paddedBit draw S j = S[j] := paddedBit_of_getElem? (List.getElem?_eq_getElem hj)
  rw [hbyte]
  exact byte_getLsbD (by simp) (by simp [hi, Nat.div_add_mod, hpad])

/-- With RADIX = 8 the eight bits that byte `k` is put together from are those of field `k` (R55). -/
theorem paddedBits_ser (draw : Nat) {F : List Nat} {k : Nat} (hk : k < F.length) :
    ((List.range 8).map fun i => paddedBit draw (ser Config.hw F) (8 * k + i)) = bitsOf Config.hw F[k] := by
  refine List.map_congr_left fun i hi => ?_
  rw [Nat.mul_comm 8 k]
  exact paddedBit_of_getElem? (ser_getElem? (c := Config.hw) hk (List.mem_range.mp hi))

/-- The bits of a byte are those of the field it holds (R55, R233). -/
theorem byteBits_eq_bitsOf (f : Nat) :
    ((List.range 8).map fun i => (BitVec.ofNat 8 f).getLsbD (7 - i)) = bitsOf Config.hw f := by
  refine List.map_congr_left fun i _ => ?_
  have hi : 7 - i < 8 := by omega
  rw [BitVec.getLsbD_ofNat, decide_eq_true hi, Bool.true_and]
  rfl

/-- Settles O58: byte by byte, the bits packed are a field's bits, and read back they are its value. -/
theorem packedEncodingHasOneByteAField : Obligations.PackedEncodingHasOneByteAField := by
  refine fun draw F hF => ⟨?_, ?_⟩
  · refine List.ext_getElem (by simp; omega) fun k _ hk => ?_
    rw [List.length_map] at hk
    have hvalue : valueOf (bitsOf Config.hw F[k]) = F[k] := valueOf_bitsOf (hF _ (List.getElem_mem hk))
    simp only [packBytes, List.getElem_map, List.getElem_range]
    rw [paddedBits_ser draw hk, hvalue]
  · simp only [unpackBytes, List.map_map, ser, Function.comp_def, byteBits_eq_bitsOf]

end Sys2Proof.Stream
end

section
/-! PROOF. The round-trip law of the framing, and the range of the encoding's fields (spec 40_framing.md R102 to
R104, R106, R109). -/

namespace Sys2Proof.Framing

variable {c : Config}

/-- The bits of a concatenation: the second part begins at the parity of the first (R106). -/
theorem decodeFrom_append (b : Bit) (F G : List Nat) :
    decodeFrom b (F ++ G) = decodeFrom b F ++ decodeFrom (b ^^ parity F.length) G := by
  induction F generalizing b with
  | nil => simp
  | cons f F ih => simp [ih]

/-- `decodeFrom_append` for the bit stream of a field stream, which begins with 0 (R106). -/
theorem decode_append (F G : List Nat) :
    decode (F ++ G) = decode F ++ decodeFrom (parity F.length) G := by
  simp [decode, decodeFrom_append]

/-- The round-trip law (R109). One more bit lengthens the last field or begins a new one, and the last field
emits copies of the last bit. -/
theorem decode_encode (hc : c.Legal) (B : List Bit) : decode (encode c B) = B := by
  induction B using List.reverseRecOn with
  | nil => rfl
  | append_singleton B b ih =>
    by_cases hB : B = []
    · subst hB
      rw [List.nil_append, encode_singleton hc]
      cases b <;> rfl
    · obtain ⟨G, l, hl, henc, hsnoc⟩ := encode_snoc hc hB b
      have hdec : decode G ++ List.replicate l (parity G.length) = B := by
        rw [← decode_snoc, ← henc, ih]
      have hlast : B.getLastD false = parity G.length := by
        obtain ⟨n, rfl⟩ := Nat.exists_eq_add_of_le' hl
        rw [← hdec, List.replicate_succ', ← List.append_assoc, List.getLastD_concat]
      rw [hsnoc, hlast, decode_append]
      split_ifs with hb hmax
      · simp [hb, ← hmax, ← hdec]
      · simp [hb, ← hdec, List.replicate_succ']
      · have hflip : (!parity G.length) = b := (Bool.eq_not_of_ne hb).symm
        simp [hflip, ← hdec]

/-- The fields of a run are at most MAX (R102). -/
theorem split_le (hc : c.Legal) {n : Nat} (hn : 1 ≤ n) : ∀ f ∈ split c n, f ≤ c.max := by
  obtain ⟨k, r, hpos, hle, rfl⟩ := exists_eq_mul_max_add hc hn
  rw [split_mul_add k hpos hle]
  intro f hf
  obtain ⟨-, rfl | rfl⟩ | rfl : (k ≠ 0 ∧ (f = c.max ∨ f = 0)) ∨ f = r := by simpa using hf
  · exact le_rfl
  · exact Nat.zero_le _
  · exact hle

/-- The leading field is a 0 (R103). -/
theorem eq_zero_of_mem_lead {B : List Bit} {f : Nat} (hf : f ∈ lead B) : f = 0 := by
  cases B with
  | nil => simp at hf
  | cons b B =>
    cases b with
    | false => simp at hf
    | true => simpa using hf

/-- The fields of an encoding are at most MAX (R103, R104). -/
theorem encode_le (hc : c.Legal) (B : List Bit) : ∀ f ∈ encode c B, f ≤ c.max := by
  intro f hf
  rw [encode_eq, List.mem_append] at hf
  obtain hf | hf := hf
  · exact (eq_zero_of_mem_lead hf).trans_le (Nat.zero_le _)
  · obtain ⟨_, hs, hf⟩ := List.mem_flatten.mp hf
    obtain ⟨r, hr, rfl⟩ := List.mem_map.mp hs
    exact split_le hc (runs_pos r hr) f hf

end Sys2Proof.Framing
end

section
/-! PROOF. Actions in issue order, units that do not interfere, what DEC_BIT emits, and the round trip on the
machine (spec 20_memory.md R57, R61, R62; 41_encoder.md R135; 42_decoder.md R165). -/

namespace Sys2Proof.Machine

variable {c : Config} {w : CmdWord}

/-! ### Actions in issue order -/

/-- A run begins with a step, and goes on from the state the step answers. -/
theorem run_succ_of_next (M : Host.Core) {s t : M.State} (k : Nat) (h : M.step s = .next t) :
    M.run (k + 1) s = M.run k t := by
  rw [Host.Core.run, h]

/-- A run serves what has been issued, in order, and leaves what was issued after it (R61). -/
theorem run_of_pending {as rest : List HostAction} {s : State} (h : s.port.pending = as ++ rest) :
    Host.Core.run core as.length s = .next (actionsAt Config.hw as (s.setPending rest)) := by
  induction as generalizing s with
  | nil =>
    obtain rfl : s.port.pending = rest := h
    rfl
  | cons a as ih =>
    have hp : s.port.pending = a :: (as ++ rest) := h
    have hstep : step s = .next ((serveAt Config.hw a s).setPending (as ++ rest)) := by
      rw [step_eq_stepAt, stepAt_cons Config.hw hp, serveAt_setPending]
    refine (run_succ_of_next core as.length hstep).trans ?_
    rw [ih (State.setPending_pending _ _), State.setPending_setPending, ← serveAt_setPending]
    rfl

/-- Settles O28. -/
theorem actionsAreServedInIssueOrder : Obligations.ActionsAreServedInIssueOrder :=
  fun _ _ _ h => run_of_pending h

/-- Command words as actions are the sequence of commands (R61). -/
theorem actionsAt_map_command (c : Config) (ws : List CmdWord) (s : State) :
    actionsAt c (ws.map .command) s = commandsAt c ws s := by
  rw [actionsAt, List.foldl_map]
  rfl

theorem actionsAt_append (c : Config) (as bs : List HostAction) (s : State) :
    actionsAt c (as ++ bs) s = actionsAt c bs (actionsAt c as s) :=
  List.foldl_append

@[simp] theorem commandsAt_port (c : Config) (ws : List CmdWord) (s : State) :
    (commandsAt c ws s).port = s.port := by
  induction ws generalizing s with
  | nil => rfl
  | cons w ws ih => rw [commandsAt_cons, ih, commandAt_port]

/-! ### Units that do not interfere -/

/-- A word that names DEC leaves ENC (R20, R76). -/
theorem commandAt_enc_of_unit (c : Config) (hu : cmdUnit w = .dec) (s : State) :
    (commandAt c w s).enc = s.enc := by
  obtain ⟨i, hd, -, hi⟩ | ⟨why, hd⟩ := decode_cases w
  · rw [commandAt, hd]
    exact (execAt_frame c i s).2 (hi ▸ hu)
  · rw [commandAt, hd, hu]
    rfl

/-- A word that names ENC leaves DEC (R20, R76). -/
theorem commandAt_dec_of_unit (c : Config) (hu : cmdUnit w = .enc) (s : State) :
    (commandAt c w s).dec = s.dec := by
  obtain ⟨i, hd, -, hi⟩ | ⟨why, hd⟩ := decode_cases w
  · rw [commandAt, hd]
    exact (execAt_frame c i s).1 (hi ▸ hu)
  · rw [commandAt, hd, hu]
    rfl

/-- What a word makes of ENC depends on ENC alone (R20). -/
theorem commandAt_enc_congr (c : Config) (w : CmdWord) {s s' : State} (h : s.enc = s'.enc) :
    (commandAt c w s).enc = (commandAt c w s').enc := by
  obtain ⟨e, d, p⟩ := s
  obtain rfl : e = s'.enc := h
  unfold commandAt
  cases decode w with
  | instr i => cases i <;> rfl
  | reserved u _ _ => cases u <;> rfl

/-- What a word makes of DEC depends on DEC alone (R20). -/
theorem commandAt_dec_congr (c : Config) (w : CmdWord) {s s' : State} (h : s.dec = s'.dec) :
    (commandAt c w s).dec = (commandAt c w s').dec := by
  obtain ⟨e, d, p⟩ := s
  obtain rfl : d = s'.dec := h
  unfold commandAt
  cases decode w with
  | instr i => cases i <;> rfl
  | reserved u _ _ => cases u <;> rfl

/-- The words that name DEC can be left out of what becomes of ENC (R62). -/
theorem commandsAt_enc_filter (c : Config) (ws : List CmdWord) {s s' : State} (h : s.enc = s'.enc) :
    (commandsAt c ws s).enc = (commandsAt c (ws.filter fun w => cmdUnit w = .enc) s').enc := by
  induction ws generalizing s s' with
  | nil => exact h
  | cons w ws ih =>
    cases hu : cmdUnit w with
    | enc => simpa [hu] using ih (commandAt_enc_congr c w h)
    | dec => simpa [hu] using ih ((commandAt_enc_of_unit c hu s).trans h)

/-- The words that name ENC can be left out of what becomes of DEC (R62). -/
theorem commandsAt_dec_filter (c : Config) (ws : List CmdWord) {s s' : State} (h : s.dec = s'.dec) :
    (commandsAt c ws s).dec = (commandsAt c (ws.filter fun w => cmdUnit w = .dec) s').dec := by
  induction ws generalizing s s' with
  | nil => exact h
  | cons w ws ih =>
    cases hu : cmdUnit w with
    | enc => simpa [hu] using ih ((commandAt_dec_of_unit c hu s).trans h)
    | dec => simpa [hu] using ih (commandAt_dec_congr c w h)

/-- Settles O29: word by word, by whether the word names the unit. -/
theorem unitsDoNotInterfere : Obligations.UnitsDoNotInterfere :=
  fun c ws _ _ => ⟨commandsAt_enc_filter c ws, commandsAt_dec_filter c ws⟩

/-! ### What DEC_BIT emits -/

/-- Settles O42: seven bits held are below 2^7, so the field they complete is at most 255. -/
theorem decoderEmissionBounds : Obligations.DecoderEmissionBounds := by
  intro b s t hinv hst h
  obtain rfl : execAt Config.hw (.decBit b) s = t := by simpa [exec_eq_execAt] using h
  rw [execAt_decBit_ready Config.hw b hst]
  by_cases hcnt : s.dec.cnt = 7
  · have hacc : shiftIn s.dec.acc b < 2 ^ (7 + 1) := shiftIn_lt b (hcnt ▸ hinv.dec.acc_lt)
    exact ⟨shiftIn s.dec.acc b, by omega, by simp [hcnt], by simp [hcnt], fun hne => absurd hcnt hne⟩
  · exact ⟨0, by omega, by simp [hcnt], by simp [hcnt], fun _ => rfl⟩

/-! ### The round trip on the machine -/

/-- ENC_END after the input `B` leaves the encoding of `B` (R134, R30 item 5). -/
theorem execAt_encEnd_of_counting {s : State} {B : List Bit} (h : s.enc.Counting c B) :
    execAt c .encEnd s = s.setEnc { s.enc with st := .done, out := Framing.encode c B } := by
  rw [execAt_encEnd_ready c h.st h.inv.len_le, ← h.tracks.stream]
  rfl

/-- DEC_END after whole fields leaves their decoding (R164, R31 item 3). -/
theorem execAt_decEnd_of_receiving {s : State} {S : List Bit} (h : s.dec.Receiving c S)
    (hlen : S.length % c.radix = 0) : execAt c .decEnd s = s.setDec { s.dec with st := .done } := by
  rw [execAt_decEnd_ready c h.st, if_pos (h.tracks.cnt.trans hlen)]

/-- `enc.stream B` leaves ENC in DONE with the encoding of `B` (R135). -/
theorem commandsAt_encStream (hc : c.Legal) (B : List Bit) (s : State) :
    (commandsAt c (Asm.Item.expand c (.encStream B)) s).enc.st = .done ∧
    (commandsAt c (Asm.Item.expand c (.encStream B)) s).enc.out = Framing.encode c B := by
  have hinit : (commandAt c (encode .encInit) s).enc.Counting c [] := by
    rw [commandAt_encode]; exact .initial c
  have hend := execAt_encEnd_of_counting (hinit.bits hc B)
  rw [Asm.Item.expand, List.cons_append, commandsAt_cons, commandsAt_append, commandsAt_cons,
    commandAt_encode, hend]
  exact ⟨rfl, rfl⟩

/-- `dec.stream F` leaves DEC in DONE with the decoding of `F` (R165). -/
theorem commandsAt_decStream (hc : c.Legal) {F : List Nat} (hF : ∀ f ∈ F, f ≤ c.max) (s : State) :
    (commandsAt c (Asm.Item.expand c (.decStream F)) s).dec.st = .done ∧
    (commandsAt c (Asm.Item.expand c (.decStream F)) s).dec.out = Framing.decode F := by
  have hinit : (commandAt c (encode .decInit) s).dec.Receiving c [] := by
    rw [commandAt_encode]; exact ⟨rfl, .initial c⟩
  have hbits := hinit.bits hc (Stream.ser c F)
  have hend := execAt_decEnd_of_receiving hbits (by simp)
  rw [Asm.Item.expand, List.cons_append, commandsAt_cons, commandsAt_append, commandsAt_cons,
    commandAt_encode, hend]
  refine ⟨rfl, hbits.tracks.out.trans ?_⟩
  rw [List.nil_append, Stream.wholeFields_ser hc.1 hF]

/-- `dec.stream` names DEC only (R81). -/
theorem cmdUnit_of_mem_decStream {F : List Nat} (hw : w ∈ Asm.Item.expand c (.decStream F)) :
    cmdUnit w = .dec := by
  obtain rfl | ⟨b, rfl⟩ | rfl :
      w = encode .decInit ∨ (∃ b, w = encode (.decBit b)) ∨ w = encode .decEnd := by
    simp only [Asm.Item.expand, Asm.decBitWords, List.cons_append, List.mem_cons, List.mem_append,
      List.mem_map, List.not_mem_nil, or_false] at hw
    exact hw.imp_right (Or.imp_left fun ⟨b, _, hb⟩ => ⟨b, hb.symm⟩)
  all_goals exact cmdUnit_encode _

/-- `dec.stream` leaves ENC (R62). -/
theorem commandsAt_decStream_enc (c : Config) (F : List Nat) (s : State) :
    (commandsAt c (Asm.Item.expand c (.decStream F)) s).enc = s.enc := by
  have hnone : (Asm.Item.expand c (.decStream F)).filter (fun w => cmdUnit w = .enc) = [] := by
    refine List.filter_eq_nil_iff.mpr fun w hw => ?_
    simp [cmdUnit_of_mem_decStream hw]
  rw [commandsAt_enc_filter c _ rfl, hnone]
  rfl

/-- Settles O39: the run serves the two invocations and the two reads; ENC keeps its result while DEC decodes
it, and what is decoded is `B` by the round-trip law. -/
theorem bitmapRoundTripOnTheMachine : Obligations.BitmapRoundTripOnTheMachine := by
  intro B rest s F ws as hp
  let t := commandsAt Config.hw (Asm.Item.expand Config.hw (.encStream B)) (s.setPending rest)
  let r := commandsAt Config.hw (Asm.Item.expand Config.hw (.decStream F)) t
  have hrun : actionsAt Config.hw as (s.setPending rest) =
      (r.addAnswer (.encOutput r.enc.out)).addAnswer (.decOutput r.dec.out) := by
    rw [actionsAt_append, actionsAt_map_command, commandsAt_append]
    rfl
  have henc : r.enc.st = .done ∧ r.enc.out = F := by
    rw [commandsAt_decStream_enc]
    exact commandsAt_encStream Config.hw_legal B _
  have hdec : r.dec.st = .done ∧ r.dec.out = B := by
    rw [← Framing.decode_encode Config.hw_legal B]
    exact commandsAt_decStream Config.hw_legal (Framing.encode_le Config.hw_legal B) t
  have hport : r.port = (s.setPending rest).port := by rw [commandsAt_port, commandsAt_port]
  refine ⟨_, run_of_pending hp, ?_⟩
  rw [hrun]
  simp [State.encResult, State.decResult, henc, hdec, hport]

end Sys2Proof.Machine
end

section
/-! PROOF. The decoder and the encoder of command words, and the step that executes a word (spec
30_encoding.md R73 to R76; 20_memory.md R61). -/

namespace Sys2Proof

/-- Settles O1, word by word. -/
theorem decoderReadsTheOpcodeMap : Obligations.DecoderReadsTheOpcodeMap := by
  unfold Obligations.DecoderReadsTheOpcodeMap
  decide

/-- The word of an instruction decodes to it (R73, R75). -/
@[simp] theorem decode_encode (i : Instr) : decode (encode i) = .instr i := by
  cases i with
  | encInit => exact Laws.EncodeDecode.encInit.2
  | encBit b => exact (Laws.EncodeDecode.encBit b).2
  | encEnd => exact Laws.EncodeDecode.encEnd.2
  | decInit => exact Laws.EncodeDecode.decInit.2
  | decBit b => exact (Laws.EncodeDecode.decBit b).2
  | decEnd => exact Laws.EncodeDecode.decEnd.2

/-- A word that decodes to an instruction is the instruction's word (R73, R75). -/
theorem encode_eq_of_decode {w : CmdWord} {i : Instr} (h : decode w = .instr i) : encode i = w := by
  obtain ⟨j, -, rfl, -⟩ | ⟨why, hres⟩ := decode_cases w
  · obtain rfl : j = i := by simpa using h
    rfl
  · simp [hres] at h

/-- Settles O2. -/
theorem decodeAndEncodeAgree : Obligations.DecodeAndEncodeAgree :=
  ⟨fun i _ => decode_encode i, fun _ _ => encode_eq_of_decode⟩

/-- A table word that reads as an instruction is a command word that decodes to it. -/
theorem decode_of_decodeTableWord {nbits w : Nat} {i : Instr} (h : decodeTableWord nbits w = some i) :
    decode (tableWord nbits w) = .instr i := by
  unfold decodeTableWord at h
  split_ifs at h
  cases hd : decode (tableWord nbits w) with
  | instr j => simpa [hd] using h
  | reserved u w' why => simp [hd] at h

namespace Machine

/-- With an action issued, a step serves the oldest one (R61). -/
theorem step_cons {s : State} {a : HostAction} {rest : List HostAction}
    (h : s.port.pending = a :: rest) : step s = serve a (s.setPending rest) := by
  rw [step, takeAction_cons h]

/-- Serving a command word that decodes to an instruction executes it (R76). -/
theorem serve_command_of_decode {w : CmdWord} {i : Instr} (h : decode w = .instr i) (s : State) :
    serve (.command w) s = exec i s := by
  rw [serve, serveCommand, h]

/-- Settles O3. -/
theorem stepExecutesTheDecodedCommand : Obligations.StepExecutesTheDecodedCommand := by
  refine fun s a rest hp => ⟨step_cons hp, fun w i ha hd => ?_⟩
  rw [step_cons hp, ha]
  exact serve_command_of_decode hd _

/-- Settles O4: the issued word is the oldest action, and taking it off gives the state back. -/
theorem issuedTableWordIsExecuted : Obligations.IssuedTableWordIsExecuted := by
  intro s nbits w i h
  have hp : (s.withFetchWord nbits w).port.pending = .command (tableWord nbits w) :: s.port.pending := rfl
  rw [step_cons hp]
  exact serve_command_of_decode (decode_of_decodeTableWord h) s

end Machine

end Sys2Proof
end

section
/-! PROOF. What the field bits do to DEC from a field boundary on (spec 30_encoding.md R78, R81;
42_decoder.md R163). -/

namespace Sys2Proof.Machine

variable {c : Config} {s : State} {S : List Bit}

/-- At a field boundary nothing is held of the next field (R25, R26). -/
theorem DecUnit.at_boundary {u : DecUnit} (hcnt : u.cnt = 0) (hacc : u.acc = 0) :
    { u with acc := 0, cnt := 0 } = u := by
  obtain ⟨common, acc, cnt, out⟩ := u
  obtain rfl : cnt = 0 := hcnt
  obtain rfl : acc = 0 := hacc
  rfl

/-- The last of a sequence of DEC_BITs (R61). -/
theorem commandsAt_decBits_snoc (c : Config) (S : List Bit) (b : Bit) (s : State) :
    commandsAt c (Asm.decBitWords (S ++ [b])) s =
      execAt c (.decBit b) (commandsAt c (Asm.decBitWords S) s) := by
  rw [← commandAt_encode, Asm.decBitWords, List.map_append, commandsAt_append]
  rfl

section boundary

variable (hst : s.dec.st = .ready) (hcnt : s.dec.cnt = 0) (hacc : s.dec.acc = 0)
include hst hcnt hacc

/-- Bits that complete no field are gathered in `acc` (R163, R26). -/
theorem commandsAt_decBits_partial (hS : S.length < c.radix) :
    commandsAt c (Asm.decBitWords S) s =
      s.setDec { s.dec with acc := Stream.valueOf S, cnt := S.length } := by
  induction S using List.reverseRecOn with
  | nil => exact (congrArg s.setDec (DecUnit.at_boundary hcnt hacc)).symm
  | append_singleton S b ih =>
    rw [List.length_append, List.length_singleton] at hS
    have hpart : S.length + 1 ≠ c.radix := by omega
    rw [commandsAt_decBits_snoc, ih (by omega)]
    simp [execAt_decBit_ready, hst, hpart, shiftIn]

/-- The bits of one field emit copies of the current bit, as many as its value, and flip it (R163, R78). -/
theorem commandsAt_decBits_field (hr : 1 ≤ c.radix) (hS : S.length = c.radix) :
    commandsAt c (Asm.decBitWords S) s = s.setDec
      { s.dec with cur := !s.dec.cur, out := s.dec.out ++ List.replicate (Stream.valueOf S) s.dec.cur } := by
  obtain rfl | ⟨A, b, rfl⟩ := List.eq_nil_or_concat' S
  · exact absurd hS (Nat.ne_of_lt hr)
  · rw [List.length_append, List.length_singleton] at hS
    rw [commandsAt_decBits_snoc, commandsAt_decBits_partial hst hcnt hacc (by omega)]
    simp [execAt_decBit_ready, hst, hS, shiftIn, hcnt, hacc]

end boundary

/-- Settles O40: the bits of `v` are one field, of value `v`. -/
theorem fieldMeansCopiesThenFlip : Obligations.FieldMeansCopiesThenFlip := by
  intro c v s hc hv hst hcnt hacc
  have hfield := commandsAt_decBits_field hst hcnt hacc hc.1 (Stream.bitsOf_length c v)
  rwa [Stream.valueOf_bitsOf hv] at hfield

end Sys2Proof.Machine
end

section
/-! PROOF. Pseudo-instructions and assembler text (spec 30_encoding.md R80, R81). -/

namespace Sys2Proof.Asm

variable {c : Config} {args : List (List Char)} {it : Item} {w : CmdWord}

/-! ### Pseudo-instructions in command words -/

/-- The words of ENC_BIT (R73). -/
theorem encode_encBit (b : Bit) : encode (.encBit b) = if b then 0x3 else 0x2 := by cases b <;> rfl

/-- The words of DEC_BIT (R73). -/
theorem encode_decBit (b : Bit) : encode (.decBit b) = if b then 0xB else 0xA := by cases b <;> rfl

theorem encBitWords_eq_literals (B : List Bit) :
    encBitWords B = B.map fun b => if b then 0x3#4 else 0x2#4 :=
  List.map_congr_left fun b _ => encode_encBit b

theorem decBitWords_eq_literals (S : List Bit) :
    decBitWords S = S.map fun b => if b then 0xB#4 else 0xA#4 :=
  List.map_congr_left fun b _ => encode_decBit b

/-- The words of a field stream are those of its fields, one after the other (R81). -/
theorem decBitWords_ser (c : Config) (F : List Nat) :
    decBitWords (Stream.ser c F) = F.flatMap fun f => Item.expand c (.decField f) := by
  simp [decBitWords, Stream.ser, Item.expand, List.flatMap, List.map_flatten, Function.comp_def]

/-- Settles O60. -/
theorem pseudoInstructionsExpandToWords : Obligations.PseudoInstructionsExpandToWords := by
  refine fun c => ⟨fun b n => ?_, fun B => ?_, fun v => ?_, fun F => ?_, decBitWords_eq_literals⟩
  · rw [Item.expand, encBitWords_eq_literals, List.map_replicate]; rfl
  · rw [Item.expand, encBitWords_eq_literals]; rfl
  · rw [Item.expand, decBitWords_eq_literals, Stream.bitsOf, List.map_map]; rfl
  · rw [Item.expand, decBitWords_ser]; rfl

/-! ### Operands -/

/-- `init` and `end` are accepted without operand only (R80). -/
theorem args_of_plainItem {i : Instr} (h : plainItem i args = some it) : args = [] := by
  by_contra hne
  simp [plainItem, hne] at h

/-- The bit characters are 0 and 1 (R80). -/
theorem eq_of_bitChar {ch : Char} {b : Bit} (h : bitChar ch = some b) : ch = '0' ∨ ch = '1' := by
  unfold bitChar at h
  split_ifs at h with h0 h1
  · exact .inl h0
  · exact .inr h1

/-- `bit` is accepted with the operand 0 or 1 only (R80). -/
theorem args_of_bitItem {mk : Bit → Instr} (h : bitItem mk args = some it) :
    args = [['0']] ∨ args = [['1']] := by
  unfold bitItem at h
  split at h
  · obtain ⟨b, hb, -⟩ := Option.map_eq_some_iff.mp h
    obtain rfl | rfl := eq_of_bitChar hb
    · exact .inl rfl
    · exact .inr rfl
  · cases h

/-! ### Reserved words -/

/-- An instruction's word is not reserved (R74). -/
@[simp] theorem isReserved_encode (i : Instr) : isReserved (encode i) = false := by
  simp [isReserved]

/-- The words of ENC_BITs (R80). -/
theorem encBitWords_eq_map_encode (B : List Bit) : encBitWords B = (B.map .encBit).map encode := by
  rw [List.map_map]; rfl

/-- The words of DEC_BITs (R80). -/
theorem decBitWords_eq_map_encode (S : List Bit) : decBitWords S = (S.map .decBit).map encode := by
  rw [List.map_map]; rfl

/-- Every item but `.word` stands for the words of a sequence of instructions (R80, R81). -/
theorem expand_eq_map_encode (c : Config) (it : Item) :
    (∃ w, it = .word w) ∨ ∃ is : List Instr, it.expand c = is.map encode := by
  cases it with
  | word w => exact .inl ⟨w, rfl⟩
  | instr i => exact .inr ⟨[i], rfl⟩
  | encRun b n => exact .inr ⟨_, encBitWords_eq_map_encode _⟩
  | encStream B =>
    refine .inr ⟨.encInit :: B.map .encBit ++ [.encEnd], ?_⟩
    simp [Item.expand, encBitWords_eq_map_encode]
  | decField v => exact .inr ⟨_, decBitWords_eq_map_encode _⟩
  | decStream F =>
    refine .inr ⟨.decInit :: (Stream.ser c F).map .decBit ++ [.decEnd], ?_⟩
    simp [Item.expand, decBitWords_eq_map_encode]
  | decBits S => exact .inr ⟨_, decBitWords_eq_map_encode _⟩

/-- Only a `.word` item stands for a reserved word (R80). -/
theorem eq_word_of_mem_expand (hw : w ∈ it.expand c) (hres : isReserved w = true) : it = .word w := by
  obtain ⟨w', rfl⟩ | ⟨is, his⟩ := expand_eq_map_encode c it
  · rw [List.mem_singleton.mp hw]
  · rw [his] at hw
    obtain ⟨i, -, rfl⟩ := List.mem_map.mp hw
    simp at hres

/-- Settles O59: the lines of R80 are assembled; `parseItem` of a mnemonic is by definition the check of its
operands; whatever the line, only a `.word` item stands for a reserved word. -/
theorem assemblerGivesTheWordOfEachMnemonic : Obligations.AssemblerGivesTheWordOfEachMnemonic := by
  refine ⟨by decide, by decide, by decide, by decide, by decide, by decide, by decide, by decide, by decide,
    fun args it h => ?_, fun args it h => ?_, fun line it w _ _ => eq_word_of_mem_expand⟩
  · obtain h | h | h | h := h <;> exact args_of_plainItem h
  · obtain h | h := h <;> exact args_of_bitItem h

end Sys2Proof.Asm
end

section
/-! PROOF. The maximal runs of a bit stream, the overflow split, and the encoding put together from them (spec
40_framing.md R101 to R105). -/

namespace Sys2Proof.Framing

variable {c : Config} {B : List Bit} {b v : Bit} {n : Nat}

/-! ### Maximal runs -/

/-- The first run has the value of the first bit (R101). -/
theorem head?_runs (B : List Bit) : (runs B).head?.map Prod.fst = B.head? := by
  cases B with
  | nil => rfl
  | cons b B =>
    rw [runs]
    split
    · rfl
    · split_ifs with h
      · simp [h]
      · rfl

/-- A bit before a run of its own value lengthens the run (R101). -/
theorem runs_cons_of_head?_eq (h : B.head? = some b) :
    ∃ n rs, runs B = (b, n) :: rs ∧ runs (b :: B) = (b, n + 1) :: rs := by
  rw [← head?_runs] at h
  obtain ⟨⟨v, n⟩, hhead, rfl⟩ := Option.map_eq_some_iff.mp h
  obtain ⟨rs, hrs⟩ := List.head?_eq_some_iff.mp hhead
  exact ⟨n, rs, hrs, by simp [runs, hrs]⟩

/-- A bit before a run of the other value is a run of its own (R101). -/
theorem runs_cons_of_head?_ne (h : B.head? ≠ some b) : runs (b :: B) = (b, 1) :: runs B := by
  rw [← head?_runs] at h
  cases hrs : runs B with
  | nil => simp [runs, hrs]
  | cons r rs =>
    have hne : b ≠ r.1 := fun hb => h (by simp [hrs, hb])
    simp [runs, hrs, hne]

/-- Copies of a bit before the other bit, or before the end, are one run (R101). -/
theorem runs_replicate_append (hn : 1 ≤ n) (h : B.head? ≠ some v) :
    runs (List.replicate n v ++ B) = (v, n) :: runs B := by
  induction n, hn using Nat.le_induction with
  | base => exact runs_cons_of_head?_ne h
  | succ n _ ih =>
    rw [List.replicate_succ, List.cons_append]
    simp [runs, ih]

/-- Copies of one bit are one run (R101). -/
theorem runs_replicate (hn : 1 ≤ n) (v : Bit) : runs (List.replicate n v) = [(v, n)] := by
  simpa using runs_replicate_append (B := []) (v := v) hn (by simp)

/-- `rs` splits `B` into runs of positive length with alternating values: what R101 asks of `runs B`. -/
def IsRunSplit (B : List Bit) (rs : List (Bit × Nat)) : Prop :=
  (∀ r ∈ rs, 1 ≤ r.2) ∧ rs.IsChain (fun r q => q.1 = !r.1) ∧
    (rs.map fun r => List.replicate r.2 r.1).flatten = B

/-- The values of the runs alternate (R101). -/
theorem isChain_runs (B : List Bit) : (runs B).IsChain fun r q => q.1 = !r.1 := by
  induction B with
  | nil => exact .nil
  | cons b B ih =>
    by_cases h : B.head? = some b
    · obtain ⟨n, rs, hB, hcons⟩ := runs_cons_of_head?_eq h
      rw [hcons, List.isChain_cons]
      rwa [hB, List.isChain_cons] at ih
    · rw [runs_cons_of_head?_ne h]
      refine List.isChain_cons.mpr ⟨fun q hq => Bool.eq_not_of_ne fun hqb => h ?_, ih⟩
      rw [← head?_runs, hq, Option.map_some, hqb]

/-- The runs written out one after the other are the stream (R101). -/
theorem flatten_runs (B : List Bit) :
    ((runs B).map fun r => List.replicate r.2 r.1).flatten = B := by
  induction B with
  | nil => rfl
  | cons b B ih =>
    by_cases h : B.head? = some b
    · obtain ⟨n, rs, hB, hcons⟩ := runs_cons_of_head?_eq h
      rw [hB] at ih
      simpa [hcons, List.replicate_succ] using ih
    · simpa [runs_cons_of_head?_ne h] using ih

theorem isRunSplit_runs (B : List Bit) : IsRunSplit B (runs B) :=
  ⟨runs_pos, isChain_runs B, flatten_runs B⟩

/-- There is no other split into alternating runs: what follows the first run is empty or begins with the other
bit (R101). -/
theorem IsRunSplit.eq_runs {rs : List (Bit × Nat)} (h : IsRunSplit B rs) : rs = runs B := by
  obtain ⟨hpos, hchain, rfl⟩ := h
  induction rs with
  | nil => rfl
  | cons r rs ih =>
    obtain ⟨hr, hpos⟩ := List.forall_mem_cons.mp hpos
    obtain ⟨hnext, hchain⟩ := List.isChain_cons.mp hchain
    have htail := ih hpos hchain
    rw [List.map_cons, List.flatten_cons, runs_replicate_append hr, ← htail]
    rw [← head?_runs, ← htail]
    intro heq
    obtain ⟨q, hq, hval⟩ := Option.map_eq_some_iff.mp heq
    exact absurd (hval.symm.trans (hnext q hq)) (by simp)

/-- Settles O43. -/
theorem runsAreTheUniqueMaximalRuns : Obligations.RunsAreTheUniqueMaximalRuns :=
  fun B => ⟨isRunSplit_runs B, fun _ h => IsRunSplit.eq_runs h⟩

/-! ### The overflow split -/

/-- A run of at most MAX bits is one field (R102). -/
theorem split_of_le_max (hn : 1 ≤ n) (hle : n ≤ c.max) : split c n = [n] := by
  simpa using split_mul_add 0 hn hle

/-- A run of more than MAX bits begins with an overflow pair (R102). -/
theorem split_of_max_lt (hc : c.Legal) (h : c.max < n) :
    split c n = c.max :: 0 :: split c (n - c.max) := by
  obtain ⟨k, r, hpos, hle, rfl⟩ := exists_eq_mul_max_add hc (show 1 ≤ n by omega)
  cases k with
  | zero => omega
  | succ k =>
    have hrest : (k + 1) * c.max + r - c.max = k * c.max + r := by rw [Nat.succ_mul]; omega
    rw [hrest, split_mul_add _ hpos hle, split_mul_add _ hpos hle]
    rfl

/-- The last field of a run is in 1..MAX (R102). -/
theorem last_field_bounds (hc : c.Legal) (hn : 1 ≤ n) :
    1 ≤ n - (n - 1) / c.max * c.max ∧ n - (n - 1) / c.max * c.max ≤ c.max := by
  have hdiv := Nat.div_add_mod' (n - 1) c.max
  have hmod := Nat.mod_lt (n - 1) (c.max_pos hc)
  omega

/-- Settles O44. -/
theorem splitIsTheOverflowLoop : Obligations.SplitIsTheOverflowLoop :=
  fun _ _ hc hL => ⟨split_of_le_max hL, split_of_max_lt hc, rfl, last_field_bounds hc hL⟩

/-! ### The encoding -/

/-- Settles O45. -/
theorem encodeIsLeadThenSplitRuns : Obligations.EncodeIsLeadThenSplitRuns := by
  refine fun c B => ⟨rfl, ?_, ?_⟩
  · rw [encode_eq, lead_false, List.flatMap_def, List.nil_append]
  · rw [encode_eq, lead_true, List.flatMap_def, List.singleton_append]

/-- The leading zero field stands exactly when the first bit is 1 (R103). -/
theorem lead_eq_of_head? (h : B.head? = some b) : lead B = if b then [0] else [] := by
  obtain ⟨B', rfl⟩ := List.head?_eq_some_iff.mp h
  cases b <;> rfl

/-- A run of copies of a bit begins with it. -/
theorem head?_replicate_append (hn : 1 ≤ n) (v : Bit) (B : List Bit) :
    (List.replicate n v ++ B).head? = some v := by
  obtain ⟨m, rfl⟩ := Nat.exists_eq_add_of_le' hn
  rfl

/-- The encoding of one run (R104). -/
theorem encode_replicate (c : Config) (hn : 1 ≤ n) (v : Bit) :
    encode c (List.replicate n v) = (if v then [0] else []) ++ split c n := by
  have hhead : (List.replicate n v).head? = some v := by simpa using head?_replicate_append hn v []
  rw [encode_eq, lead_eq_of_head? hhead, runs_replicate hn, List.map_singleton, List.flatten_singleton]

/-- Settles O46. -/
theorem encodeOfASingleRun : Obligations.EncodeOfASingleRun := by
  refine fun c L _ hL hle => ⟨rfl, ?_, ?_⟩
  all_goals rw [encode_replicate c hL, split_of_le_max hL hle]; rfl

end Sys2Proof.Framing
end

section
/-! PROOF. The decoding of a field stream, and the encoding as its inverse on canonical streams (spec 40_framing.md
R106, R107, R109, R110). -/

namespace Sys2Proof.Framing

variable {c : Config} {F : List Nat}

/-- Each field emits as many bits as its value (R106). -/
@[simp] theorem decodeFrom_length (b : Bit) (F : List Nat) : (decodeFrom b F).length = F.sum := by
  induction F generalizing b with
  | nil => rfl
  | cons f F ih => simp [ih]

/-- Settles O47. -/
theorem decodeEmitsEachFieldAlternating : Obligations.DecodeEmitsEachFieldAlternating :=
  ⟨decodeFrom_nil, decodeFrom_cons, fun F G => ⟨rfl, decodeFrom_length false F, decode_append F G⟩⟩

/-- An overflow pair emits copies of the current bit and leaves the current bit as it is (R107). -/
theorem decodeFrom_pair (b : Bit) (m : Nat) (G : List Nat) :
    decodeFrom b (m :: 0 :: G) = List.replicate m b ++ decodeFrom b G := by
  simp

/-- Overflow pairs, one after the other (R107). -/
theorem decodeFrom_pairs (b : Bit) (m k : Nat) (G : List Nat) :
    decodeFrom b ((List.replicate k [m, 0]).flatten ++ G) =
      List.replicate (k * m) b ++ decodeFrom b G := by
  induction k with
  | zero => simp
  | succ k ih =>
    rw [List.replicate_succ, List.flatten_cons, List.append_assoc, List.cons_append, List.singleton_append,
      decodeFrom_pair, ih, ← List.append_assoc, List.replicate_append_replicate, Nat.succ_mul, Nat.add_comm m]

/-- The fields of a run emit the run and flip the current bit (R107). -/
theorem decodeFrom_split_append (hc : c.Legal) {n : Nat} (hn : 1 ≤ n) (b : Bit) (G : List Nat) :
    decodeFrom b (split c n ++ G) = List.replicate n b ++ decodeFrom (!b) G := by
  obtain ⟨k, r, hpos, hle, rfl⟩ := exists_eq_mul_max_add hc hn
  rw [split_mul_add k hpos hle, List.append_assoc, decodeFrom_pairs, List.singleton_append,
    decodeFrom_cons, ← List.append_assoc, List.replicate_append_replicate]

/-- Settles O48. -/
theorem overflowPairIsTransparent : Obligations.OverflowPairIsTransparent :=
  fun c b G hc => ⟨decodeFrom_pair b c.max G, fun _ hL => decodeFrom_split_append hc hL b G⟩

/-- Settles O50. -/
theorem decodeOfEncodeIsTheInput : Obligations.DecodeOfEncodeIsTheInput :=
  fun _ B hc => decode_encode hc B

/-- Two streams with the same encoding are the same (R109). -/
theorem encode_injective (hc : c.Legal) : Function.Injective (encode c) :=
  Function.LeftInverse.injective (decode_encode hc)

/-- Re-encoding the decoding gives the canonical streams back and no others (R110). -/
theorem encode_decode_iff (hc : c.Legal) : encode c (decode F) = F ↔ Canonical c F := by
  constructor
  · exact fun h => ⟨decode F, h.symm⟩
  · rintro ⟨B, rfl⟩
    rw [decode_encode hc]

/-- Settles O51. -/
theorem encodeOfDecodeOnlyForCanonicalStreams : Obligations.EncodeOfDecodeOnlyForCanonicalStreams :=
  ⟨fun _ _ hc => encode_decode_iff hc, by decide, rfl, by decide, by decide⟩

end Sys2Proof.Framing
end

section
/-! PROOF. The canonical field streams and the grammar: a group is the split of a run, a parse the encoding of the
stream of those runs (spec 40_framing.md R108). -/

namespace Sys2Proof.Framing

variable {c : Config} {B : List Bit} {F g : List Nat}

/-! ### Groups are the splits of runs -/

/-- The fields of a run are a group (R108). -/
theorem group_split (hc : c.Legal) {n : Nat} (hn : 1 ≤ n) : Group c (split c n) := by
  obtain ⟨k, r, hpos, hle, rfl⟩ := exists_eq_mul_max_add hc hn
  rw [split_mul_add k hpos hle]
  induction k with
  | zero => exact .last hpos hle
  | succ k ih => exact .pair (ih (Nat.le_add_left_of_le hpos))

/-- A group is the fields of a run (R108). -/
theorem Group.exists_eq_split (hc : c.Legal) (h : Group c g) : ∃ n, 1 ≤ n ∧ g = split c n := by
  induction h with
  | last hpos hle => exact ⟨_, hpos, (split_of_le_max hpos hle).symm⟩
  | pair _ ih =>
    obtain ⟨n, hn, rfl⟩ := ih
    refine ⟨n + c.max, by omega, ?_⟩
    rw [split_of_max_lt hc (show c.max < n + c.max by omega), Nat.add_sub_cancel]

/-! ### Parses are the encodings of streams -/

/-- Groups, one after the other, are the splits of the runs of a stream that begins with a given bit (R108). -/
theorem exists_runs_of_groups (hc : c.Legal) {gs : List (List Nat)} (v : Bit)
    (hgs : ∀ g ∈ gs, Group c g) (hne : gs ≠ []) :
    ∃ B, B.head? = some v ∧ (runs B).map (fun r => split c r.2) = gs := by
  induction gs generalizing v with
  | nil => exact absurd rfl hne
  | cons g gs ih =>
    obtain ⟨hg, htail⟩ := List.forall_mem_cons.mp hgs
    obtain ⟨n, hn, rfl⟩ := hg.exists_eq_split hc
    obtain ⟨B, hB, hruns⟩ :
        ∃ B, B.head? ≠ some v ∧ (runs B).map (fun r => split c r.2) = gs := by
      by_cases hnil : gs = []
      · exact ⟨[], by simp, by simp [hnil]⟩
      · obtain ⟨B, hB, hruns⟩ := ih (!v) htail hnil
        exact ⟨B, by simp [hB], hruns⟩
    refine ⟨_, head?_replicate_append hn v B, ?_⟩
    rw [runs_replicate_append hn hB, List.map_cons, hruns]

/-- A parse is read off the first bit and the runs of a stream whose encoding is parsed (R108). -/
theorem Parse.exists_input (hc : c.Legal) {l : Bool} {gs : List (List Nat)} (h : Parse c F l gs) :
    ∃ B, F = encode c B ∧ B.head? = some l ∧ (runs B).map (fun r => split c r.2) = gs := by
  obtain ⟨B, hB, hruns⟩ := exists_runs_of_groups hc l h.each h.groups_ne
  exact ⟨B, by rw [encode_eq, lead_eq_of_head? hB, hruns, h.stream], hB, hruns⟩

/-- The encoding of a non-empty stream parses into its lead and the splits of its runs (R108). -/
theorem parse_encode (hc : c.Legal) (b : Bit) (B : List Bit) :
    Parse c (encode c (b :: B)) b ((runs (b :: B)).map fun r => split c r.2) where
  groups_ne := by simp
  each := by
    intro g hg
    obtain ⟨r, hr, rfl⟩ := List.mem_map.mp hg
    exact group_split hc (runs_pos r hr)
  stream := by rw [encode_eq, lead_eq_of_head? (List.head?_cons (l := B))]

theorem canonical_iff_grammar (hc : c.Legal) : Canonical c F ↔ Grammar c F := by
  constructor
  · rintro ⟨B, rfl⟩
    cases B with
    | nil => exact .inl rfl
    | cons b B => exact .inr ⟨b, _, parse_encode hc b B⟩
  · rintro (rfl | ⟨l, gs, h⟩)
    · exact ⟨[], rfl⟩
    · obtain ⟨B, hF, -⟩ := h.exists_input hc
      exact ⟨B, hF⟩

/-- Two parses of one stream are equal: both are read off the one stream it encodes (R108, R109). -/
theorem Parse.unique (hc : c.Legal) {l l' : Bool} {gs gs' : List (List Nat)} (h : Parse c F l gs)
    (h' : Parse c F l' gs') : l = l' ∧ gs = gs' := by
  obtain ⟨B, rfl, hl, rfl⟩ := h.exists_input hc
  obtain ⟨B', henc, hl', rfl⟩ := h'.exists_input hc
  obtain rfl := encode_injective hc henc
  exact ⟨Option.some_injective _ (hl.symm.trans hl'), rfl⟩

/-! ### Where a zero field stands -/

/-- In an encoding only MAX is followed by a field 0 (R108). -/
theorem isChain_encode (hc : c.Legal) (B : List Bit) :
    (encode c B).IsChain fun f f' => f' = 0 → f = c.max := by
  have hmax := c.max_pos hc
  induction B using List.reverseRecOn with
  | nil => exact .nil
  | append_singleton B b ih =>
    by_cases hB : B = []
    · subst hB
      rw [List.nil_append, encode_singleton hc]
      cases b <;> simp
    · obtain ⟨G, l, hl, henc, hsnoc⟩ := encode_snoc hc hB b
      rw [henc] at ih
      rw [hsnoc, List.isChain_append]
      refine ⟨(List.isChain_append.mp ih).1, ?_⟩
      have hl0 : l ≠ 0 := Nat.ne_of_gt hl
      have hmax0 : c.max ≠ 0 := Nat.ne_of_gt hmax
      split_ifs
      · simp [hmax0]
      · simp
      · simp [hl0]

/-- Settles O49: the third part is that only MAX is followed by a field 0, at position `k - 1`. -/
theorem canonicalStreamsAreTheGrammar : Obligations.CanonicalStreamsAreTheGrammar := by
  refine fun c F hc => ⟨canonical_iff_grammar hc, fun _ _ _ _ h h' => h.unique hc h', ?_⟩
  rintro ⟨B, rfl⟩ k hk
  cases k with
  | zero => exact .inl rfl
  | succ k =>
    obtain ⟨hlt, hzero⟩ := List.getElem?_eq_some_iff.mp hk
    have hprev := List.isChain_iff_getElem.mp (isChain_encode hc B) k hlt hzero
    exact .inr (List.getElem?_eq_some_iff.mpr ⟨Nat.lt_of_succ_lt hlt, hprev⟩)

end Sys2Proof.Framing
end

section
/-! PROOF. The size of an encoding, and what of it stays when the input goes on (spec 40_framing.md R111 to
R113). -/

namespace Sys2Proof.Framing

variable {c : Config} {B : List Bit} {b : Bit}

/-! ### Field counts -/

/-- The number of fields of one run (R111). -/
@[simp] theorem split_length (c : Config) (n : Nat) : (split c n).length = runFields c n := by
  simp [split, runFields, Nat.mul_comm]

/-- One leading field, if the first bit is 1 (R103). -/
theorem lead_length (B : List Bit) : (lead B).length = if B.head? = some true then 1 else 0 := by
  cases B with
  | nil => rfl
  | cons b B => cases b <;> rfl

/-- The lead, and the fields of each run (R111). -/
theorem encode_length (c : Config) (B : List Bit) :
    (encode c B).length =
      (if B.head? = some true then 1 else 0) + ((runs B).map fun r => runFields c r.2).sum := by
  simp [encode_eq, lead_length, List.length_flatten, Function.comp_def]

/-- Settles O52. -/
theorem fieldCountOfTheEncoding : Obligations.FieldCountOfTheEncoding := by
  refine fun c B _ => ⟨encode_length c B, ?_⟩
  rw [Stream.ser_length, Nat.mul_comm]

/-- The alternating stream of `n` bits that starts with 0 (R112). -/
def alternating (n : Nat) : List Bit := (List.range n).map parity

theorem alternating_succ (n : Nat) : alternating (n + 1) = alternating n ++ [parity n] := by
  simp [alternating, List.range_succ]

/-- A bit other than the last one adds one field (R104). -/
theorem encode_length_snoc_of_ne (hc : c.Legal) (hB : B ≠ []) (hb : b ≠ B.getLastD false) :
    (encode c (B ++ [b])).length = (encode c B).length + 1 := by
  obtain ⟨G, l, -, henc, hsnoc⟩ := encode_snoc hc hB b
  rw [hsnoc, if_neg hb, henc]
  simp

/-- An alternating stream has a field for each bit (R112). -/
theorem encode_alternating_length (hc : c.Legal) (n : Nat) :
    (encode c (alternating n)).length = n := by
  induction n with
  | zero => rfl
  | succ n ih =>
    cases n with
    | zero =>
      rw [alternating_succ]
      simp [alternating, encode_singleton hc]
    | succ n =>
      rw [alternating_succ, encode_length_snoc_of_ne hc, ih]
      · simp [alternating_succ]
      · rw [alternating_succ, List.getLastD_concat, parity_succ]
        exact Bool.not_ne_self _

/-- Settles O53. -/
theorem encodedSizeOfExtremeInputs : Obligations.EncodedSizeOfExtremeInputs := by
  have hzeros : (encode Config.hw (List.replicate 8000 false)).length = 63 := by
    rw [encode_replicate Config.hw (by decide)]
    simp [runFields]
  have halt : ∀ n, (encode Config.hw (alternating n)).length = n :=
    encode_alternating_length Config.hw_legal
  refine ⟨hzeros, ?_, fun n => ⟨halt n, ?_⟩⟩
  · rw [Stream.ser_length, hzeros, Config.hw_radix]
  · calc (Stream.ser Config.hw (encode Config.hw (alternating n))).length
        = (encode Config.hw (alternating n)).length * 8 := Stream.ser_length _ _
      _ = 8 * n := by rw [halt n, Nat.mul_comm]

/-! ### What is fixed before the last field -/

/-- One more bit changes only the last field (R113). -/
theorem dropLast_encode_prefix_snoc (hc : c.Legal) (hB : B ≠ []) (b : Bit) :
    (encode c B).dropLast <+: (encode c (B ++ [b])).dropLast := by
  obtain ⟨G, l, -, henc, hsnoc⟩ := encode_snoc hc hB b
  rw [henc, hsnoc, List.dropLast_concat, List.dropLast_append_of_ne_nil (by split_ifs <;> simp)]
  exact List.prefix_append _ _

/-- However the input goes on, the fields before the last one stay (R113). -/
theorem dropLast_encode_prefix_append (hc : c.Legal) (hB : B ≠ []) (T : List Bit) :
    (encode c B).dropLast <+: (encode c (B ++ T)).dropLast := by
  induction T using List.reverseRecOn with
  | nil => rw [List.append_nil]
  | append_singleton T b ih =>
    rw [← List.append_assoc]
    exact ih.trans (dropLast_encode_prefix_snoc hc (List.append_ne_nil_of_left_ne_nil hB T) b)

/-- Settles O54, by induction on what `B'` adds to `B`. -/
theorem encodingExtendsByPrefix : Obligations.EncodingExtendsByPrefix := by
  rintro c B _ hc hB ⟨T, rfl⟩
  exact (dropLast_encode_prefix_append hc hB T).trans (List.dropLast_prefix _)

end Sys2Proof.Framing
end

section
/-! PROOF. The encoder unit: what `emit_field` and the three ENC commands do, and encoding through the unit
(spec 41_encoder.md R130 to R136; 42_decoder.md R165). The BIT and END frames of DEC stand beside those of ENC. -/

namespace Sys2Proof.Machine

variable {c : Config} {b : Bit} {w : CmdWord}

/-! ### ENC outside READY, and a body that raises -/

/-- In DONE a BIT or END word raises SEQUENCE on ENC (R192). -/
theorem EncUnit.command_done {u : EncUnit} (body : Except Raised EncUnit) (hst : u.st = .done) :
    u.command w body = u.raise ⟨.sequence, wordInfo w⟩ := by
  rw [EncUnit.command, hst, runCommand_done]

/-- In ERROR a BIT or END word is ignored by ENC (R198). -/
theorem EncUnit.command_error {u : EncUnit} (body : Except Raised EncUnit) (hst : u.st = .error) :
    u.command w body = u := by
  rw [EncUnit.command, hst, runCommand_error]

/-- In READY a body that raises leaves the error entry alone on ENC (R132, R195). -/
theorem EncUnit.command_ready_error {u : EncUnit} {e : Raised} {body : Except Raised EncUnit}
    (hst : u.st = .ready) (hbody : body = .error e) : u.command w body = u.raise e := by
  rw [EncUnit.command, hst, hbody, runCommand_ready_error]

/-- `exec` is the general meaning at RADIX = 8, read from its answer. -/
theorem eq_execAt_of_exec {i : Instr} {s t : State} (h : exec i s = .next t) :
    t = execAt Config.hw i s := by
  simpa [exec_eq_execAt] using h.symm

/-! ### `emit_field` -/

/-- ENC_BIT asked to end a run longer than MAX raises FIELD_OVERFLOW (R131, R133). -/
theorem encBitBody_of_gt {u : EncUnit} (hb : b ≠ u.cur) (hl : c.max < u.len) :
    encBitBody c b u = .error ⟨.fieldOverflow, countInfo u.len⟩ := by
  simp [encBitBody, hb, emitField_of_gt u hl, bind, Except.bind]

/-- ENC_BIT in READY that ends a run longer than MAX (R131, R133). -/
theorem execAt_encBit_overflow {s : State} (hst : s.enc.st = .ready) (hb : b ≠ s.enc.cur)
    (hlen : c.max < s.enc.len) :
    execAt c (.encBit b) s = s.setEnc (s.enc.raise ⟨.fieldOverflow, countInfo s.enc.len⟩) :=
  congrArg s.setEnc (EncUnit.command_ready_error hst (encBitBody_of_gt hb hlen))

/-- ENC_END in READY that holds a run longer than MAX (R131, R134). -/
theorem execAt_encEnd_overflow {s : State} (hst : s.enc.st = .ready) (hlen : c.max < s.enc.len) :
    execAt c .encEnd s = s.setEnc (s.enc.raise ⟨.fieldOverflow, countInfo s.enc.len⟩) :=
  congrArg s.setEnc (EncUnit.command_ready_error hst (encEndBody_of_gt hlen))

/-- The error information of FIELD_OVERFLOW is the value mod 256 (R194). -/
theorem countInfo_eq_mod (n : Nat) : countInfo n = BitVec.ofNat 8 (n % 256) := by
  apply BitVec.eq_of_toNat_eq
  simp [countInfo]

/-- Settles O11: a body that emits a length above MAX raises, and the unit invariants exclude the error. -/
theorem emitFieldFailsRatherThanTruncates : Obligations.EmitFieldFailsRatherThanTruncates := by
  refine ⟨fun c v u => ⟨emitField_of_le u, fun hv => ?_⟩, fun s hst hlen => ?_, fun s t hinv hstep => ?_⟩
  · rw [emitField_of_gt u hv, countInfo_eq_mod]
  · have hgt : Config.hw.max < s.enc.len := hlen
    rw [← countInfo_eq_mod]
    refine ⟨?_, fun b hb => ?_⟩
    · rw [exec_eq_execAt, execAt_encEnd_overflow hst hgt]; rfl
    · rw [exec_eq_execAt, execAt_encBit_overflow hst hb hgt]; rfl
  · rw [eq_stepAt_of_step hstep]
    exact (hinv.stepAt Config.hw_legal).enc.own_errors.2

/-! ### The three ENC commands, RADIX = 8 -/

/-- Settles O12. -/
theorem encInitStartsANewInvocation : Obligations.EncInitStartsANewInvocation := fun _ => rfl

/-- The word of ENC_BIT as error information (R192). -/
theorem wordInfo_encBit (b : Bit) : wordInfo (encode (.encBit b)) = if b then 0x03 else 0x02 := by
  cases b <;> rfl

/-- ENC_BIT in DONE (R192). -/
theorem execAt_encBit_done {s : State} (hst : s.enc.st = .done) :
    execAt c (.encBit b) s = s.setEnc (s.enc.raise ⟨.sequence, wordInfo (encode (.encBit b))⟩) :=
  congrArg s.setEnc (EncUnit.command_done _ hst)

/-- ENC_BIT in ERROR (R198). -/
theorem execAt_encBit_error {s : State} (hst : s.enc.st = .error) : execAt c (.encBit b) s = s :=
  congrArg s.setEnc (EncUnit.command_error _ hst)

/-- ENC_END in DONE (R192). -/
theorem execAt_encEnd_done {s : State} (hst : s.enc.st = .done) :
    execAt c .encEnd s = s.setEnc (s.enc.raise ⟨.sequence, wordInfo (encode .encEnd)⟩) :=
  congrArg s.setEnc (EncUnit.command_done _ hst)

/-- ENC_END in ERROR (R198). -/
theorem execAt_encEnd_error {s : State} (hst : s.enc.st = .error) : execAt c .encEnd s = s :=
  congrArg s.setEnc (EncUnit.command_error _ hst)

/-- Settles O13, by the state of ENC. -/
theorem encBitCountsTheRun : Obligations.EncBitCountsTheRun := by
  intro b s hlen
  rw [exec_eq_execAt, ← wordInfo_encBit]
  refine ⟨fun hst => ?_, fun hst => ?_, fun hst => ?_⟩
  · rw [execAt_encBit_ready Config.hw b hst hlen]; rfl
  · rw [execAt_encBit_done hst]; rfl
  · rw [execAt_encBit_error hst]

/-- Settles O14, by the state of ENC; in READY the held length decides whether a field is emitted. -/
theorem encEndEmitsTheLastField : Obligations.EncEndEmitsTheLastField := by
  intro s hlen
  rw [exec_eq_execAt]
  refine ⟨fun hst hne => ?_, fun hst hzero => ?_, fun hst => ?_, fun hst => ?_⟩
  · rw [execAt_encEnd_ready Config.hw hst hlen, if_neg hne]; rfl
  · rw [execAt_encEnd_ready Config.hw hst hlen, if_pos hzero, List.append_nil]; rfl
  · rw [execAt_encEnd_done hst]; rfl
  · rw [execAt_encEnd_error hst]

/-! ### What the commands emit -/

/-- The fields ENC_BIT emits: none, the overflow pair, or the length of the run that ends (R133). -/
theorem encBitBody_emits {u u' : EncUnit} (h : encBitBody c b u = .ok u') :
    ∃ es, u'.out = u.out ++ es ∧ (es = [] ∨ es = [c.max, 0] ∨ es = [u.len]) := by
  obtain ⟨-, -, rfl⟩ | ⟨-, -, rfl⟩ | ⟨-, -, rfl⟩ := encBitBody_ok h
  · exact ⟨[], (List.append_nil _).symm, .inl rfl⟩
  · exact ⟨[c.max, 0], rfl, .inr (.inl rfl)⟩
  · exact ⟨[u.len], rfl, .inr (.inr rfl)⟩

/-- The bits DEC_BIT emits come after those emitted before (R163). -/
theorem decBitBody_out_prefix {u u' : DecUnit} (h : decBitBody c b u = .ok u') : u.out <+: u'.out := by
  obtain ⟨-, rfl⟩ | ⟨-, rfl⟩ := decBitBody_ok h
  · exact List.prefix_append _ _
  · exact List.prefix_rfl

/-- Settles O41: by what ENC_BIT and ENC_END emit. A held length 0, which ENC_BIT emits as the leading zero
field, means that nothing has been emitted (R30 item 2). -/
theorem encoderEmissionBounds : Obligations.EncoderEmissionBounds := by
  intro i s t hinv hst hunit hi h
  obtain rfl := eq_execAt_of_exec h
  have hlen : s.enc.len ≤ 255 := hinv.enc.len_le
  cases i with
  | encInit => exact absurd rfl hi
  | encBit b =>
    have hbody := commandAt_encBit_body (b := b) hst hinv.enc.len_le
    rw [commandAt_encode] at hbody
    obtain ⟨es, hout, hes⟩ := encBitBody_emits hbody
    refine ⟨es, hout, ?_⟩
    obtain rfl | rfl | rfl := hes
    · simp
    · simp
    · refine ⟨by simp, by simpa using hlen, fun hzero => ⟨nofun, .inr ?_⟩⟩
      have hlen0 : s.enc.len = 0 := (List.mem_singleton.mp hzero).symm
      exact ⟨congrArg (fun n => [n]) hlen0, (hinv.enc.fresh hlen0).2⟩
  | encEnd =>
    rw [execAt_encEnd_ready Config.hw hst hlen]
    refine ⟨_, rfl, ?_⟩
    by_cases hlen0 : s.enc.len = 0
    · simp [hlen0]
    · simp [hlen0, hlen, Ne.symm hlen0]
  | decInit | decBit | decEnd => cases hunit

/-! ### Frames of BIT and END -/

/-- Settles O20: the bodies keep status and error and only append to the output. -/
theorem bitCommandsKeepStatusAndError : Obligations.BitCommandsKeepStatusAndError := by
  refine fun b s t => ⟨fun h hst hlen => ?_, fun h hst => ?_⟩
  · obtain rfl := eq_execAt_of_exec h
    have hbody := commandAt_encBit_body (c := Config.hw) (b := b) hst hlen
    rw [commandAt_encode] at hbody
    obtain ⟨hst', herr, hinfo⟩ := encBitBody_status hbody
    obtain ⟨es, hout, -⟩ := encBitBody_emits hbody
    exact ⟨hst', herr, hinfo, ⟨es, hout.symm⟩, (execAt_frame _ _ s).1 rfl, execAt_port _ _ s⟩
  · obtain rfl := eq_execAt_of_exec h
    have hbody := commandAt_decBit_body (c := Config.hw) (b := b) hst
    rw [commandAt_encode] at hbody
    obtain ⟨hst', herr, hinfo⟩ := decBitBody_status hbody
    exact ⟨hst', herr, hinfo, decBitBody_out_prefix hbody, (execAt_frame _ _ s).2 rfl, execAt_port _ _ s⟩

/-- Whatever ENC_END comes to, it keeps `cur` and `len` and the fields emitted before, and a normal end keeps
`err` and `einfo` (R134, R195). -/
theorem encEnd_command_frame {u u' : EncUnit} (h : u.command w (encEndBody c u) = u') :
    u'.cur = u.cur ∧ u'.len = u.len ∧ u.out <+: u'.out ∧
    (u.st = .ready → u'.st = .done → u'.err = u.err ∧ u'.einfo = u.einfo) := by
  obtain ⟨-, hrun⟩ | ⟨-, hrun⟩ | ⟨-, v, hbody, hrun⟩ | ⟨-, e, -, hrun⟩ :=
    runCommand_cases u.raise w (encEndBody c u) u u.st
  · obtain rfl := hrun.symm.trans h
    exact ⟨rfl, rfl, List.prefix_rfl, fun _ _ => ⟨rfl, rfl⟩⟩
  · obtain rfl := hrun.symm.trans h
    exact ⟨rfl, rfl, List.prefix_rfl, nofun⟩
  · obtain ⟨-, rfl⟩ := encEndBody_ok hbody
    obtain rfl := hrun.symm.trans h
    exact ⟨rfl, rfl, List.prefix_append _ _, fun _ _ => ⟨rfl, rfl⟩⟩
  · obtain rfl := hrun.symm.trans h
    exact ⟨rfl, rfl, List.prefix_rfl, nofun⟩

/-- DEC_END's body completes in one way only (R164). -/
theorem decEndBody_ok {u u' : DecUnit} (h : decEndBody u = .ok u') : u' = { u with st := .done } := by
  by_cases hcnt : u.cnt = 0
  · rw [decEndBody_whole hcnt] at h
    simpa using h.symm
  · rw [decEndBody_partial hcnt] at h
    cases h

/-- Whatever DEC_END comes to, it keeps `cur`, `acc`, `cnt` and `out`, and a normal end keeps `err` and `einfo`
(R164, R195). -/
theorem decEnd_command_frame {u u' : DecUnit} (h : u.command w (decEndBody u) = u') :
    u'.cur = u.cur ∧ u'.acc = u.acc ∧ u'.cnt = u.cnt ∧ u'.out = u.out ∧
    (u.st = .ready → u'.st = .done → u'.err = u.err ∧ u'.einfo = u.einfo) := by
  obtain ⟨-, hrun⟩ | ⟨-, hrun⟩ | ⟨-, v, hbody, hrun⟩ | ⟨-, e, -, hrun⟩ :=
    runCommand_cases u.raise w (decEndBody u) u u.st
  · obtain rfl := hrun.symm.trans h
    exact ⟨rfl, rfl, rfl, rfl, fun _ _ => ⟨rfl, rfl⟩⟩
  · obtain rfl := hrun.symm.trans h
    exact ⟨rfl, rfl, rfl, rfl, nofun⟩
  · obtain rfl := decEndBody_ok hbody
    obtain rfl := hrun.symm.trans h
    exact ⟨rfl, rfl, rfl, rfl, fun _ _ => ⟨rfl, rfl⟩⟩
  · obtain rfl := hrun.symm.trans h
    exact ⟨rfl, rfl, rfl, rfl, nofun⟩

/-- Settles O21: each END acts on its unit behind the checks of R76. -/
theorem endCommandsKeepTheData : Obligations.EndCommandsKeepTheData := by
  refine fun s t => ⟨fun h => ?_, fun h => ?_⟩
  · obtain rfl := eq_execAt_of_exec h
    obtain ⟨hcur, hlen, hout, herr⟩ := encEnd_command_frame (u := s.enc) rfl
    exact ⟨hcur, hlen, hout, herr, (execAt_frame _ _ s).1 rfl, execAt_port _ _ s⟩
  · obtain rfl := eq_execAt_of_exec h
    obtain ⟨hcur, hacc, hcnt, hout, herr⟩ := decEnd_command_frame (u := s.dec) rfl
    exact ⟨hcur, hacc, hcnt, hout, herr, (execAt_frame _ _ s).2 rfl, execAt_port _ _ s⟩

/-! ### Encoding and decoding through the units -/

/-- Every sequence of command words keeps the ENC invariant. -/
theorem EncUnit.Inv.commandsAt {s : State} (hc : c.Legal) (h : s.enc.Inv c) (ws : List CmdWord) :
    (commandsAt c ws s).enc.Inv c := by
  induction ws generalizing s with
  | nil => exact h
  | cons w ws ih => exact ih ((commandAt_encMove c w s).inv hc h)

/-- Every sequence of command words keeps the DEC invariant. -/
theorem DecUnit.Inv.commandsAt {s : State} (hc : c.Legal) (h : s.dec.Inv c) (ws : List CmdWord) :
    (commandsAt c ws s).dec.Inv c := by
  induction ws generalizing s with
  | nil => exact h
  | cons w ws ih => exact ih ((commandAt_decMove c w s).inv hc h)

/-- `enc.stream` ends without an error: its INIT makes the invariant hold, and DONE then means NONE (R22). -/
theorem commandsAt_encStream_err (hc : c.Legal) (B : List Bit) (s : State) :
    (commandsAt c (Asm.Item.expand c (.encStream B)) s).enc.err = .none := by
  have hinit : (commandAt c (encode .encInit) s).enc.Inv c := by
    rw [commandAt_encode]; exact .initial c
  have hinv : (commandsAt c (Asm.Item.expand c (.encStream B)) s).enc.Inv c := hinit.commandsAt hc _
  have hdone := (commandsAt_encStream hc B s).1
  exact (hinv.coherent.clear (by simp [hdone])).1

/-- `dec.stream` of fields up to MAX ends without an error, by the DEC invariant (R22). -/
theorem commandsAt_decStream_err (hc : c.Legal) {F : List Nat} (hF : ∀ f ∈ F, f ≤ c.max) (s : State) :
    (commandsAt c (Asm.Item.expand c (.decStream F)) s).dec.err = .none := by
  have hinit : (commandAt c (encode .decInit) s).dec.Inv c := by
    rw [commandAt_encode]; exact .initial hc
  have hinv : (commandsAt c (Asm.Item.expand c (.decStream F)) s).dec.Inv c := hinit.commandsAt hc _
  have hdone := (commandsAt_decStream hc hF s).1
  exact (hinv.coherent.clear (by simp [hdone])).1

/-- `enc.stream` names ENC only (R81). -/
theorem cmdUnit_of_mem_encStream {B : List Bit} (hw : w ∈ Asm.Item.expand c (.encStream B)) :
    cmdUnit w = .enc := by
  obtain rfl | ⟨b, -, rfl⟩ | rfl :
      w = encode .encInit ∨ (∃ b ∈ B, encode (.encBit b) = w) ∨ w = encode .encEnd := by
    simpa only [Asm.Item.expand, Asm.encBitWords, List.cons_append, List.mem_cons, List.mem_append,
      List.mem_map, List.not_mem_nil, or_false] using hw
  all_goals exact cmdUnit_encode _

/-- `enc.stream` leaves DEC (R20, R62). -/
theorem commandsAt_encStream_dec (c : Config) (B : List Bit) (s : State) :
    (commandsAt c (Asm.Item.expand c (.encStream B)) s).dec = s.dec := by
  have hnone : (Asm.Item.expand c (.encStream B)).filter (fun w => cmdUnit w = .dec) = [] := by
    refine List.filter_eq_nil_iff.mpr fun w hw => ?_
    simp [cmdUnit_of_mem_encStream hw]
  rw [commandsAt_dec_filter c _ rfl, hnone]
  rfl

/-- Settles O35. -/
theorem encoderComputesEncode : Obligations.EncoderComputesEncode := by
  intro c B s hc
  obtain ⟨hst, hout⟩ := commandsAt_encStream hc B s
  exact ⟨hst, commandsAt_encStream_err hc B s, hout, commandsAt_encStream_dec c B s⟩

/-- Settles O38: what DEC is given is the encoding of `B`, and the round-trip law decodes it. -/
theorem decoderUndoesEncoder : Obligations.DecoderUndoesEncoder := by
  intro c B s hc t r
  have hF : ∀ f ∈ t.enc.out, f ≤ c.max := by
    rw [(commandsAt_encStream hc B s).2]
    exact Framing.encode_le hc B
  obtain ⟨hst, hout⟩ := commandsAt_decStream hc hF t
  refine ⟨hst, commandsAt_decStream_err hc hF t, hout.trans ?_, commandsAt_decStream_enc c _ t⟩
  rw [(commandsAt_encStream hc B s).2, Framing.decode_encode hc]

end Sys2Proof.Machine
end

section
/-! PROOF. The decoder unit: decoding through the unit, and what the three DEC commands do (spec 42_decoder.md
R160 to R165; 60_exceptions.md R192, R193, R198). -/

namespace Sys2Proof.Stream

variable {c : Config}

/-- The part of a stream before its partial field is read as the fields the stream holds whole (R31, R51). -/
theorem deser_take_whole (hr : 1 ≤ c.radix) (S : List Bit) :
    deser c (S.take (S.length - S.length % c.radix)) = some (wholeFields c S) := by
  rw [← Nat.div_mul_self_eq_mod_sub_self, deser_eq_some_iff]
  refine ⟨?_, wholeFields_take_whole hr S⟩
  rw [List.length_take_of_le (Nat.div_mul_le_self _ _), Nat.mul_mod_left]

end Sys2Proof.Stream

namespace Sys2Proof.Machine

variable {c : Config} {s : State}

/-! ### Decoding through the unit -/

/-- INIT and the bits of `S` leave DEC receiving `S` (R160, R163). -/
theorem commandsAt_decInit_bits_receiving (hc : c.Legal) (S : List Bit) (s : State) :
    (commandsAt c (encode .decInit :: Asm.decBitWords S) s).dec.Receiving c S := by
  have hinit : (commandAt c (encode .decInit) s).dec.Receiving c [] := by
    rw [commandAt_encode]; exact ⟨rfl, .initial c⟩
  exact hinit.bits hc S

/-- INIT and any bits raise nothing: INIT makes the DEC invariant hold, and READY then means NONE (R22). -/
theorem commandsAt_decInit_bits_err (hc : c.Legal) (S : List Bit) (s : State) :
    (commandsAt c (encode .decInit :: Asm.decBitWords S) s).dec.err = .none := by
  have hinit : (commandAt c (encode .decInit) s).dec.Inv c := by
    rw [commandAt_encode]; exact .initial hc
  have hinv : (commandsAt c (encode .decInit :: Asm.decBitWords S) s).dec.Inv c := hinit.commandsAt hc _
  have hready := (commandsAt_decInit_bits_receiving hc S s).st
  exact (hinv.coherent.clear (by rw [hready]; nofun)).1

/-- Words that all name DEC leave ENC (R62). -/
theorem commandsAt_enc_of_units (c : Config) {ws : List CmdWord} (hws : ∀ w ∈ ws, cmdUnit w = .dec) (s : State) :
    (commandsAt c ws s).enc = s.enc := by
  induction ws generalizing s with
  | nil => rfl
  | cons w ws ih =>
    obtain ⟨hw, hws⟩ := List.forall_mem_cons.mp hws
    rw [commandsAt_cons, ih hws, commandAt_enc_of_unit c hw]

/-- INIT and the bits name DEC only, so they leave ENC (R20, R62). -/
theorem commandsAt_decInit_bits_enc (c : Config) (S : List Bit) (s : State) :
    (commandsAt c (encode .decInit :: Asm.decBitWords S) s).enc = s.enc := by
  refine commandsAt_enc_of_units c (List.forall_mem_cons.mpr ⟨cmdUnit_encode _, fun w hw => ?_⟩) s
  obtain ⟨b, -, rfl⟩ := List.mem_map.mp hw
  exact cmdUnit_encode _

/-- DEC_END inside a field raises STREAM_EXHAUSTED with the number of bits received of it (R164, R193). -/
theorem execAt_decEnd_exhausted {S : List Bit} (h : s.dec.Receiving c S) (hlen : S.length % c.radix ≠ 0) :
    execAt c .decEnd s = s.setDec (s.dec.raise ⟨.streamExhausted, countInfo (S.length % c.radix)⟩) := by
  rw [← h.tracks.cnt] at hlen ⊢
  rw [execAt_decEnd_ready c h.st, if_neg hlen]

/-- Settles O37: DEC has received `S` when DEC_END comes, and the bits held of a partial field are those `S` has
left over. -/
theorem decoderComputesDecode : Obligations.DecoderComputesDecode := by
  intro c S s hc
  have hrec := commandsAt_decInit_bits_receiving hc S s
  rw [commandsAt_append, commandsAt_cons, commandsAt_nil, commandAt_encode]
  refine ⟨commandsAt_decInit_bits_enc c S s, fun hwhole => ?_, fun hpart => ?_⟩
  · rw [execAt_decEnd_of_receiving hrec hwhole]
    have hdeser := Stream.deser_eq_some_iff.mpr ⟨hwhole, rfl⟩
    exact ⟨rfl, commandsAt_decInit_bits_err hc S s, _, hdeser, hrec.tracks.out⟩
  · rw [execAt_decEnd_exhausted hrec hpart]
    have hlt : S.length % c.radix < 256 := (Nat.mod_lt _ hc.1).trans_le (hc.2.trans (by decide))
    exact ⟨rfl, rfl, countInfo_toNat hlt, _, Stream.deser_take_whole hc.1 S, hrec.tracks.out⟩

/-! ### The three DEC commands, RADIX = 8 -/

/-- Settles O15. -/
theorem decInitStartsANewInvocation : Obligations.DecInitStartsANewInvocation := fun _ => rfl

/-- DEC_BIT and DEC_END act on DEC behind the checks of R76. -/
theorem exists_execAt_eq_dec_command (c : Config) {i : Instr} (hunit : i.unit = .dec) (hi : i ≠ .decInit)
    (s : State) : ∃ body, execAt c i s = s.setDec (s.dec.command (encode i) body) := by
  cases i with
  | encInit | encBit | encEnd => cases hunit
  | decInit => exact absurd rfl hi
  | decBit | decEnd => exact ⟨_, rfl⟩

/-- In DONE DEC_BIT and DEC_END raise SEQUENCE with their word (R192). -/
theorem execAt_dec_done {i : Instr} (hunit : i.unit = .dec) (hi : i ≠ .decInit) (hst : s.dec.st = .done) :
    execAt c i s = s.setDec (s.dec.raise ⟨.sequence, wordInfo (encode i)⟩) := by
  obtain ⟨body, h⟩ := exists_execAt_eq_dec_command c hunit hi s
  rw [h, DecUnit.command, hst, runCommand_done]

/-- In ERROR DEC_BIT and DEC_END are ignored (R198). -/
theorem execAt_dec_error {i : Instr} (hunit : i.unit = .dec) (hi : i ≠ .decInit) (hst : s.dec.st = .error) :
    execAt c i s = s := by
  obtain ⟨body, h⟩ := exists_execAt_eq_dec_command c hunit hi s
  rw [h, DecUnit.command, hst, runCommand_error, State.setDec_self]

/-- The word of DEC_BIT as error information (R192). -/
theorem wordInfo_decBit (b : Bit) : wordInfo (encode (.decBit b)) = if b then 0x0B else 0x0A := by
  cases b <;> rfl

/-- Settles O16, by the state of DEC; in READY the count decides whether the field is complete. -/
theorem decBitAssemblesTheField : Obligations.DecBitAssemblesTheField := by
  intro b s
  rw [exec_eq_execAt, ← wordInfo_decBit]
  refine ⟨fun hst hfull => ?_, fun hst hpart => ?_, fun hst => ?_, fun hst => ?_⟩
  · rw [execAt_decBit_ready Config.hw b hst, Config.hw_radix, if_pos hfull]; rfl
  · rw [execAt_decBit_ready Config.hw b hst, Config.hw_radix, if_neg hpart]; rfl
  · rw [execAt_dec_done (i := .decBit b) rfl nofun hst]; rfl
  · rw [execAt_dec_error (i := .decBit b) rfl nofun hst]

/-- Settles O17, by the state of DEC; in READY the count decides between DONE and STREAM_EXHAUSTED. -/
theorem decEndAcceptsOnlyWholeFields : Obligations.DecEndAcceptsOnlyWholeFields := by
  intro s _
  rw [exec_eq_execAt]
  refine ⟨fun hst hzero => ?_, fun hst hne => ?_, fun hst => ?_, fun hst => ?_⟩
  · rw [execAt_decEnd_ready Config.hw hst, if_pos hzero]; rfl
  · rw [execAt_decEnd_ready Config.hw hst, if_neg hne]; rfl
  · rw [execAt_dec_done (i := .decEnd) rfl nofun hst]; rfl
  · rw [execAt_dec_error (i := .decEnd) rfl nofun hst]

end Sys2Proof.Machine
end

section
/-! PROOF. Taking an error, ignoring commands in ERROR, and the way out of ERROR (spec 60_exceptions.md R191, R192,
R195, R198, R199). -/

namespace Sys2Proof.Machine

variable {c : Config} {w : CmdWord} {s : State}

/-! ### Entering ERROR -/

/-- The words of ENC_BIT and ENC_END name ENC (R73). -/
theorem cmdUnit_of_encBit_or_encEnd (hword : (∃ b, w = encode (.encBit b)) ∨ w = encode .encEnd) :
    cmdUnit w = .enc := by
  obtain ⟨b, rfl⟩ | rfl := hword
  · exact cmdUnit_encode (.encBit b)
  · exact cmdUnit_encode .encEnd

/-- The words of DEC_BIT and DEC_END name DEC (R73). -/
theorem cmdUnit_of_decBit_or_decEnd (hword : (∃ b, w = encode (.decBit b)) ∨ w = encode .decEnd) :
    cmdUnit w = .dec := by
  obtain ⟨b, rfl⟩ | rfl := hword
  · exact cmdUnit_encode (.decBit b)
  · exact cmdUnit_encode .decEnd

/-- The only moves of ENC into ERROR are error entries, by words that name ENC (R195). -/
theorem EncMove.of_enters_error {u u' : EncUnit} (hm : EncMove c w u u') (hst : u.st ≠ .error)
    (hst' : u'.st = .error) : cmdUnit w = .enc ∧ ∃ e, u' = u.raise e ∧ e.code ≠ .none := by
  cases hm with
  | other => exact absurd hst' hst
  | init => cases hst'
  | ignored _ _ herr => exact absurd herr hst
  | illegal hunit => exact ⟨hunit, _, rfl, nofun⟩
  | sequence hword => exact ⟨cmdUnit_of_encBit_or_encEnd hword, _, rfl, nofun⟩
  | bit _ _ hbody => exact absurd ((encBitBody_status hbody).1 ▸ hst') hst
  | fin _ _ hbody =>
    obtain ⟨-, rfl⟩ := encEndBody_ok hbody
    cases hst'
  | overflow hword => exact ⟨cmdUnit_of_encBit_or_encEnd hword, _, rfl, nofun⟩

/-- The only moves of DEC into ERROR are error entries, by words that name DEC (R195). -/
theorem DecMove.of_enters_error {u u' : DecUnit} (hm : DecMove c w u u') (hst : u.st ≠ .error)
    (hst' : u'.st = .error) : cmdUnit w = .dec ∧ ∃ e, u' = u.raise e ∧ e.code ≠ .none := by
  cases hm with
  | other => exact absurd hst' hst
  | init => cases hst'
  | ignored _ _ herr => exact absurd herr hst
  | illegal hunit => exact ⟨hunit, _, rfl, nofun⟩
  | sequence hword => exact ⟨cmdUnit_of_decBit_or_decEnd hword, _, rfl, nofun⟩
  | bit _ _ hbody => exact absurd ((decBitBody_status hbody).1 ▸ hst') hst
  | fin => cases hst'
  | exhausted hword => exact ⟨hword ▸ cmdUnit_encode .decEnd, _, rfl, nofun⟩

/-- A step that serves a word naming DEC leaves ENC (R20, R76). -/
theorem stepAt_enc_of_unit (c : Config) (hw : s.nextAction = some (.command w)) (hunit : cmdUnit w = .dec) :
    (stepAt c s).enc = s.enc := by
  obtain ⟨rest, hstep⟩ := stepAt_of_nextAction_command c hw
  rw [hstep, commandAt_enc_of_unit c hunit, State.setPending_enc]

/-- A step that serves a word naming ENC leaves DEC (R20, R76). -/
theorem stepAt_dec_of_unit (c : Config) (hw : s.nextAction = some (.command w)) (hunit : cmdUnit w = .enc) :
    (stepAt c s).dec = s.dec := by
  obtain ⟨rest, hstep⟩ := stepAt_of_nextAction_command c hw
  rw [hstep, commandAt_dec_of_unit c hunit, State.setPending_dec]

/-- Settles O8: a step into ERROR serves a word, and the unit's move is an error entry. -/
theorem errorEntryWritesOnlyTheErrorFields : Obligations.ErrorEntryWritesOnlyTheErrorFields := by
  intro s t hstep
  obtain rfl := eq_stepAt_of_step hstep
  obtain ⟨henc, hdec, -⟩ | ⟨-, henc, hdec⟩ | ⟨w, hw, henc, hdec⟩ := stepAt_units Config.hw s
  · rw [henc, hdec]
    exact ⟨fun hst hst' => absurd hst' hst, fun hst hst' => absurd hst' hst⟩
  · rw [henc, hdec]
    exact ⟨fun _ => nofun, fun _ => nofun⟩
  · refine ⟨fun hst hst' => ?_, fun hst hst' => ?_⟩
    · obtain ⟨hunit, e, hraise, hcode⟩ := henc.of_enters_error hst hst'
      rw [hraise]
      exact ⟨rfl, hcode, stepAt_dec_of_unit _ hw hunit⟩
    · obtain ⟨hunit, e, hraise, hcode⟩ := hdec.of_enters_error hst hst'
      rw [hraise]
      exact ⟨rfl, hcode, stepAt_enc_of_unit _ hw hunit⟩

/-! ### In ERROR and out of it -/

/-- In ERROR a command word leaves ENC as it is or is its INIT (R198, R199). -/
theorem EncMove.of_error {u u' : EncUnit} (hm : EncMove c w u u') (hst : u.st = .error) :
    u' = u ∨ (w = encode .encInit ∧ u' = encInitUnit) := by
  cases hm with
  | other => exact .inl rfl
  | init hword => exact .inr ⟨hword, rfl⟩
  | ignored => exact .inl rfl
  | illegal _ _ hne => exact absurd hst hne
  | sequence _ hdone => simp [hst] at hdone
  | bit _ hready => simp [hst] at hready
  | fin _ hready => simp [hst] at hready
  | overflow _ hready => simp [hst] at hready

/-- In ERROR a command word leaves DEC as it is or is its INIT (R198, R199). -/
theorem DecMove.of_error {u u' : DecUnit} (hm : DecMove c w u u') (hst : u.st = .error) :
    u' = u ∨ (w = encode .decInit ∧ u' = decInitUnit) := by
  cases hm with
  | other => exact .inl rfl
  | init hword => exact .inr ⟨hword, rfl⟩
  | ignored => exact .inl rfl
  | illegal _ _ hne => exact absurd hst hne
  | sequence _ hdone => simp [hst] at hdone
  | bit _ hready => simp [hst] at hready
  | fin _ hready => simp [hst] at hready
  | exhausted _ hready => simp [hst] at hready

/-- Settles O9: of the moves from ERROR only INIT leaves it, and INIT and reset write every field. -/
theorem onlyInitOrResetLeavesError : Obligations.OnlyInitOrResetLeavesError := by
  intro s t hstep
  obtain rfl := eq_stepAt_of_step hstep
  obtain ⟨henc, hdec, -⟩ | ⟨hr, henc, hdec⟩ | ⟨w, hw, henc, hdec⟩ := stepAt_units Config.hw s
  · rw [henc, hdec]
    exact ⟨fun hst hst' => absurd hst hst', fun hst hst' => absurd hst hst'⟩
  · exact ⟨fun _ _ => ⟨.inr hr, henc⟩, fun _ _ => ⟨.inr hr, hdec⟩⟩
  · refine ⟨fun hst hst' => ?_, fun hst hst' => ?_⟩
    · obtain h | ⟨rfl, h⟩ := henc.of_error hst
      · exact absurd (h ▸ hst) hst'
      · exact ⟨.inl hw, h⟩
    · obtain h | ⟨rfl, h⟩ := hdec.of_error hst
      · exact absurd (h ▸ hst) hst'
      · exact ⟨.inl hw, h⟩

/-- A word that names ENC changes nothing when it leaves ENC as it is (R20, R76). -/
theorem commandAt_eq_self_of_enc (hunit : cmdUnit w = .enc) (henc : (commandAt c w s).enc = s.enc) :
    commandAt c w s = s :=
  calc commandAt c w s
      = ⟨(commandAt c w s).enc, (commandAt c w s).dec, (commandAt c w s).port⟩ := rfl
    _ = s := by rw [henc, commandAt_dec_of_unit c hunit, commandAt_port]

/-- A word that names DEC changes nothing when it leaves DEC as it is (R20, R76). -/
theorem commandAt_eq_self_of_dec (hunit : cmdUnit w = .dec) (hdec : (commandAt c w s).dec = s.dec) :
    commandAt c w s = s :=
  calc commandAt c w s
      = ⟨(commandAt c w s).enc, (commandAt c w s).dec, (commandAt c w s).port⟩ := rfl
    _ = s := by rw [commandAt_enc_of_unit c hunit, hdec, commandAt_port]

/-- Settles O7: in ERROR the unit's only move by another word than INIT is to stay as it is. -/
theorem unitInErrorIgnoresAllButInit : Obligations.UnitInErrorIgnoresAllButInit := by
  intro s w
  rw [serve_eq_serveAt, serveAt]
  refine ⟨fun hbit hne hst => congrArg _ ?_, fun hbit hne hst => congrArg _ ?_⟩
  · obtain h | ⟨hinit, -⟩ := (commandAt_encMove Config.hw w s).of_error hst
    · exact commandAt_eq_self_of_enc (cmdUnit_eq_enc_iff.mpr hbit) h
    · exact absurd hinit hne
  · obtain h | ⟨hinit, -⟩ := (commandAt_decMove Config.hw w s).of_error hst
    · exact commandAt_eq_self_of_dec (cmdUnit_eq_dec_iff.mpr hbit) h
    · exact absurd hinit hne

/-! ### The errors a command word raises by its dispatch -/

/-- A reserved word decodes as reserved for the unit it names (R74, R75). -/
theorem exists_decode_eq_reserved (hres : Asm.isReserved w) :
    ∃ why, decode w = .reserved (cmdUnit w) w why := by
  obtain ⟨i, -, rfl, -⟩ | h := decode_cases w
  · simp at hres
  · exact h

/-- Serving a reserved word acts on the unit it names (R76). -/
theorem serve_command_of_isReserved (hres : Asm.isReserved w) (s : State) :
    serve (.command w) s = .next (illegalCommand (cmdUnit w) w s) := by
  obtain ⟨why, hd⟩ := exists_decode_eq_reserved hres
  rw [serve, serveCommand, hd]

/-- Outside ERROR a reserved word raises ILLEGAL_CMD (R191). -/
theorem runReserved_of_ne_error {σ : Type} {st : InvState} (raise : Raised → σ) (u : σ) (hst : st ≠ .error) :
    runReserved st raise w u = raise ⟨.illegalCmd, wordInfo w⟩ := by
  obtain ⟨herr, -⟩ | ⟨-, h⟩ := runReserved_cases raise w u st
  · exact absurd herr hst
  · exact h

/-- Settles O5: the eight words are reserved, and outside ERROR the unit they name takes the error. -/
theorem reservedWordRaisesIllegalCommand : Obligations.ReservedWordRaisesIllegalCommand := by
  intro s w hw
  have reserved : ∀ w ∈ ([0x1, 0x5, 0x6, 0x7, 0x9, 0xD, 0xE, 0xF] : List CmdWord), Asm.isReserved w := by
    decide
  rw [serve_command_of_isReserved (reserved w hw)]
  refine ⟨fun hbit hst => ?_, fun hbit hst => ?_⟩
  · rw [cmdUnit_eq_enc_iff.mpr hbit, illegalCommand, runReserved_of_ne_error _ _ hst]; rfl
  · rw [cmdUnit_eq_dec_iff.mpr hbit, illegalCommand, runReserved_of_ne_error _ _ hst]; rfl

/-- Serving the word of an instruction executes it (R73, R76). -/
theorem serve_command_encode (i : Instr) (s : State) :
    serve (.command (encode i)) s = .next (execAt Config.hw i s) := by
  rw [serve_command_of_decode (decode_encode i), exec_eq_execAt]

/-- Settles O6: the words are those of BIT and END, which raise SEQUENCE in DONE. -/
theorem inputAfterEndRaisesSequence : Obligations.InputAfterEndRaisesSequence := by
  intro s w
  refine ⟨fun hw hst => ?_, fun hw hst => ?_⟩
  · have word : (∃ b, w = encode (.encBit b)) ∨ w = encode .encEnd := by
      fin_cases hw
      exacts [.inl ⟨false, rfl⟩, .inl ⟨true, rfl⟩, .inr rfl]
    obtain ⟨b, rfl⟩ | rfl := word
    · rw [serve_command_encode, execAt_encBit_done hst]; rfl
    · rw [serve_command_encode, execAt_encEnd_done hst]; rfl
  · have word : (∃ b, w = encode (.decBit b)) ∨ w = encode .decEnd := by
      fin_cases hw
      exacts [.inl ⟨false, rfl⟩, .inl ⟨true, rfl⟩, .inr rfl]
    obtain ⟨b, rfl⟩ | rfl := word
    · rw [serve_command_encode, execAt_dec_done (i := .decBit b) rfl nofun hst]; rfl
    · rw [serve_command_encode, execAt_dec_done (i := .decEnd) rfl nofun hst]; rfl

end Sys2Proof.Machine
end

section
/-! PROOF. Reset, the loss of output, and interleaved commands of the two units (spec 70_reset_and_hazards.md R220,
R231, R235). -/

namespace Sys2Proof.Machine

variable {c : Config} {w : CmdWord} {s : State}

/-! ### What loses output -/

/-- ENC_END emits after the fields emitted before (R134). -/
theorem encEndBody_out_prefix {u u' : EncUnit} (h : encEndBody c u = .ok u') : u.out <+: u'.out := by
  obtain ⟨-, rfl⟩ := encEndBody_ok h
  exact List.prefix_append _ _

/-- ENC_BIT emits after the fields emitted before (R133). -/
theorem encBitBody_out_prefix {b : Bit} {u u' : EncUnit} (h : encBitBody c b u = .ok u') :
    u.out <+: u'.out := by
  obtain ⟨es, hout, -⟩ := encBitBody_emits h
  exact ⟨es, hout.symm⟩

/-- Of the moves of ENC only INIT removes a field from its output (R231). -/
theorem EncMove.out_prefix {u u' : EncUnit} (hm : EncMove c w u u') (hinit : w ≠ encode .encInit) :
    u.out <+: u'.out := by
  cases hm with
  | init hword => exact absurd hword hinit
  | bit _ _ hbody => exact encBitBody_out_prefix hbody
  | fin _ _ hbody => exact encEndBody_out_prefix hbody
  | other | ignored | illegal | sequence | overflow => exact List.prefix_rfl

/-- Of the moves of DEC only INIT removes a bit from its output (R231). -/
theorem DecMove.out_prefix {u u' : DecUnit} (hm : DecMove c w u u') (hinit : w ≠ encode .decInit) :
    u.out <+: u'.out := by
  cases hm with
  | init hword => exact absurd hword hinit
  | bit _ _ hbody => exact decBitBody_out_prefix hbody
  | other | ignored | illegal | sequence | fin | exhausted => exact List.prefix_rfl

/-- A step that serves neither ENC_INIT nor reset removes nothing from ENC's output (R231). -/
theorem stepAt_enc_out_prefix (hinit : s.nextAction ≠ some (.command (encode .encInit)))
    (hreset : s.nextAction ≠ some .reset) : s.enc.out <+: (stepAt c s).enc.out := by
  obtain ⟨henc, -⟩ | ⟨hr, -⟩ | ⟨w, hw, hm, -⟩ := stepAt_units c s
  · rw [henc]
  · exact absurd hr hreset
  · exact hm.out_prefix fun hi => hinit (hi ▸ hw)

/-- A step that serves neither DEC_INIT nor reset removes nothing from DEC's output (R231). -/
theorem stepAt_dec_out_prefix (hinit : s.nextAction ≠ some (.command (encode .decInit)))
    (hreset : s.nextAction ≠ some .reset) : s.dec.out <+: (stepAt c s).dec.out := by
  obtain ⟨-, hdec, -⟩ | ⟨hr, -⟩ | ⟨w, hw, -, hm⟩ := stepAt_units c s
  · rw [hdec]
  · exact absurd hr hreset
  · exact hm.out_prefix fun hi => hinit (hi ▸ hw)

/-- Settles O22: INIT and reset leave the initial unit; every other move keeps the output or appends to it. -/
theorem outputIsLostOnlyByInitOrReset : Obligations.OutputIsLostOnlyByInitOrReset := by
  intro s t hstep
  obtain rfl := eq_stepAt_of_step hstep
  refine ⟨fun h => ?_, fun h => ?_, stepAt_enc_out_prefix, stepAt_dec_out_prefix⟩
  · rw [stepAt_enc_initial Config.hw h]
    exact ⟨rfl, rfl, rfl⟩
  · rw [stepAt_dec_initial Config.hw h]
    exact ⟨rfl, rfl, rfl, rfl⟩

/-! ### Interleaved commands -/

/-- Words that all name ENC leave DEC (R62). -/
theorem commandsAt_dec_of_units (c : Config) {ws : List CmdWord} (hws : ∀ w ∈ ws, cmdUnit w = .enc) (s : State) :
    (commandsAt c ws s).dec = s.dec := by
  induction ws generalizing s with
  | nil => rfl
  | cons w ws ih =>
    obtain ⟨hw, hws⟩ := List.forall_mem_cons.mp hws
    rw [commandsAt_cons, ih hws, commandAt_dec_of_unit c hw]

/-- The words kept for the unit `u` name `u`. -/
theorem cmdUnit_of_mem_filter {ws : List CmdWord} {u : UnitId}
    (hw : w ∈ ws.filter fun w => cmdUnit w = u) : cmdUnit w = u := by
  simpa using List.of_mem_filter hw

/-- A state is its two units and the port (R20). -/
theorem State.eq_of_fields {s t : State} (henc : s.enc = t.enc) (hdec : s.dec = t.dec) (hport : s.port = t.port) :
    s = t :=
  calc s = ⟨s.enc, s.dec, s.port⟩ := rfl
    _ = t := by rw [henc, hdec, hport]

/-- Settles O30: each unit is what its own words make of it, and the other unit's words leave it alone. -/
theorem interleavedInvocationsAsIfOneAfterTheOther :
    Obligations.InterleavedInvocationsAsIfOneAfterTheOther := by
  intro c ws s
  rw [commandsAt_append]
  set encWords := ws.filter fun w => cmdUnit w = .enc
  set decWords := ws.filter fun w => cmdUnit w = .dec
  have henc : (commandsAt c ws s).enc = (commandsAt c decWords (commandsAt c encWords s)).enc :=
    calc (commandsAt c ws s).enc
        = (commandsAt c encWords s).enc := commandsAt_enc_filter c ws rfl
      _ = (commandsAt c decWords (commandsAt c encWords s)).enc :=
          (commandsAt_enc_of_units c (fun _ => cmdUnit_of_mem_filter) _).symm
  have hdec : (commandsAt c ws s).dec = (commandsAt c decWords (commandsAt c encWords s)).dec :=
    commandsAt_dec_filter c ws (commandsAt_dec_of_units c (fun _ => cmdUnit_of_mem_filter) s).symm
  have hport : (commandsAt c ws s).port = (commandsAt c decWords (commandsAt c encWords s)).port := by
    simp only [commandsAt_port]
  exact State.eq_of_fields henc hdec hport

/-! ### Reset -/

/-- Every status register reads 0 in the reset state (R33, R220). -/
theorem statusRead_reset : ∀ a : RegNum, statusRead State.reset a = 0 := by decide

/-- After reset is asserted the status registers read as in the reset state, since they show the units alone
(R32, R220). -/
theorem statusRead_assertReset (s : State) (a : RegNum) : statusRead s.assertReset a = 0 :=
  calc statusRead s.assertReset a
      = statusRead State.reset a := rfl
    _ = 0 := statusRead_reset a

/-- Settles O23: reset sets the units the two INITs set, and in those every register reads 0. -/
theorem resetIsInitOfBothUnits : Obligations.ResetIsInitOfBothUnits := by
  refine ⟨fun s => ⟨rfl, ⟨s.setEnc encInitUnit, rfl, rfl⟩, fun t a h => ?_⟩, rfl, rfl, statusRead_reset⟩
  obtain rfl : s.assertReset = t := by simpa [serve] using h
  exact statusRead_assertReset s a

end Sys2Proof.Machine
end
